-- ==== Sys2Proof/Word.lean ====
section
/-! DEFINITION. The bit widths the spec names: bits, bytes, 16-bit values, register codes and
register identifiers (00_scope.md R6, R7; 10_state.md R21). Names only: every computation on them
stands in Decode.lean or in a file under Machine/. -/

namespace Sys2Proof

/-- One bit of an instruction byte, such as the `w` flag (R7). -/
abbrev Bit := BitVec 1

/-- A byte, 8 bits (R6). -/
abbrev Byte := BitVec 8

/-- A displacement, immediate or direct-address value, at most 16 bits wide (R6). -/
abbrev Word16 := BitVec 16

/-- A word of the host's register map (R181). -/
abbrev Word32 := BitVec 32

/-- The 2-bit `mod` field (R11). -/
abbrev ModField := BitVec 2

/-- A 3-bit register code, the `reg` field or the `r/m` field (R11). -/
abbrev RegCode := BitVec 3

/-- `RegId = w ++ code`, 4 bits (R21). -/
abbrev RegId := BitVec 4

/-- The 3-bit `rm` value that selects an effective-address expression (R103). -/
abbrev EaCode := BitVec 3

end Sys2Proof
end

