-- ==== Sys2Proof/Syntax.lean ====
section
/-! DEFINITION. The instructions the core decodes: one constructor of Instr per row of
spec/opcode_table.json, with the packed fields of 41_field_decoder.md R120 and the variable fields
of R128 to R130, and the enumerations these are made of (30_encoding.md R70, R78). -/

namespace Sys2Proof

/-- The five encoding variants (R70), by the spec's short names. -/
inductive Variant where
  | rmr   -- RegisterMemoryToFromRegister
  | irm   -- ImmediateToRegisterMemory
  | ir    -- ImmediateToRegister
  | mta   -- MemoryToAccumulator
  | atm   -- AccumulatorToMemory
deriving DecidableEq, Repr

/-- A displacement (R78): absent, 8-bit signed or 16-bit signed. A direct address is none (R78). -/
inductive Disp where
  | noDisp
  | disp8 (v : Byte)
  | disp16 (v : Word16)
deriving DecidableEq, Repr

/-- The fixed fields of each variant (R120). A field the variant does not have is absent from its
constructor, where the spec writes `None`. -/
inductive Fields where
  | rmr (d w : Bit) (mod : ModField) (reg rm : RegCode)
  | irm (w : Bit) (mod : ModField) (reg rm : RegCode)
  | ir (w : Bit) (reg : RegCode)
  | mta (w : Bit)
  | atm (w : Bit)
deriving DecidableEq, Repr

/-- One decoded instruction: its fixed fields and what its variable bytes hold. -/
inductive Instr where
  /-- RegisterMemoryToFromRegister (R71, R161): `addr` is the direct address, present exactly for
  `mod = 00, rm = 110`. -/
  | rmr (d w : Bit) (mod : ModField) (reg rm : RegCode) (disp : Disp) (addr : Option Word16)
  /-- MemoryToAccumulator (R74, R164). -/
  | mta (w : Bit) (addr : Word16)
  /-- AccumulatorToMemory (R75, R165). -/
  | atm (w : Bit) (addr : Word16)
  /-- ImmediateToRegisterMemory (R72, R162): `reg` is the raw, unchecked bits 5:3 of byte 1. -/
  | irm (w : Bit) (mod : ModField) (reg rm : RegCode) (disp : Disp) (data : Word16)
  /-- ImmediateToRegister (R73, R163). -/
  | ir (w : Bit) (reg : RegCode) (data : Word16)
deriving DecidableEq, Repr

/-- The variant an instruction belongs to. -/
def Instr.variant : Instr → Variant
  | .rmr .. => .rmr
  | .mta .. => .mta
  | .atm .. => .atm
  | .irm .. => .irm
  | .ir .. => .ir

/-- The instruction's fixed fields. -/
def Instr.fields : Instr → Fields
  | .rmr d w mod reg rm _ _ => .rmr d w mod reg rm
  | .mta w _ => .mta w
  | .atm w _ => .atm w
  | .irm w mod reg rm _ _ => .irm w mod reg rm
  | .ir w reg _ => .ir w reg

end Sys2Proof
end

