-- ==== Sys2Proof/WellFormed.lean ====
section
/-! DEFINITION. Which terms of Instr stand for bytes: the displacement and the direct address are
the ones `mod` and `rm` call for, and a value that occupies one byte fits one byte
(30_encoding.md R71 to R83). -/

namespace Sys2Proof

/-- The displacement is of the kind `mod` selects (R76, R77). -/
def dispFits (mod : ModField) (disp : Disp) : Bool :=
  match mod, disp with
  | 0, .noDisp => true
  | 1, .disp8 _ => true
  | 2, .disp16 _ => true
  | 3, .noDisp => true
  | _, _ => false

/-- RMR carries a direct address exactly for `mod = 00, rm = 110` (R71). -/
def directFits (mod : ModField) (rm : RegCode) (addr : Option Word16) : Bool :=
  addr.isSome == (mod == 0 && rm == 6)

/-- A value that `w = 0` keeps in one byte is below 256 (R79, R82). -/
def valueFits (w : Bit) (v : Word16) : Bool :=
  w == 1 || v.toNat < 256

/-- The instruction is one some bytes decode to. -/
def Instr.wellFormed : Instr → Bool
  | .rmr _ _ mod _ rm disp addr => dispFits mod disp && directFits mod rm addr
  | .mta w addr => valueFits w addr
  | .atm w addr => valueFits w addr
  | .irm w mod _ _ disp data => dispFits mod disp && valueFits w data
  | .ir w _ data => valueFits w data

end Sys2Proof
end

