-- ==== Sys2Proof/Decode.lean ====
section
/-! DEFINITION. From bytes to an instruction and back: the prefix matcher and the mode-to-length
resolver (42_classifier.md), the field extraction (41_field_decoder.md), and the encoder written
from the formats of 30_encoding.md R71 to R75. -/

namespace Sys2Proof

/-! ### Values made of bytes (R8, R53) -/

/-- `word(lo, hi)`: the byte at the lower offset is the low byte (R53). -/
def word (lo hi : Byte) : Word16 := lo.setWidth 16 ||| (hi.setWidth 16 <<< 8)

/-- `zext_16` (R8). -/
def zext16 (b : Byte) : Word16 := b.setWidth 16

/-- The byte of a 16-bit value that stands at the lower offset (R53). -/
def loByte (v : Word16) : Byte := v.extractLsb' 0 8

/-- The byte of a 16-bit value that stands at the higher offset (R53). -/
def hiByte (v : Word16) : Byte := v.extractLsb' 8 8

/-- Byte `k` of a span. The default stands for no byte of any span: a span a variant is extracted
from holds every index read (R131). -/
def spanByte (s : List Byte) (k : Nat) : Byte := s.getD k 0

/-! ### Prefix matcher (R140, R141) -/

/-- One entry of the prefix table: byte 0 matches when its bits under `mask` equal `value`. -/
structure PrefixEntry where
  mask : Byte
  value : Byte
  variant : Variant
deriving DecidableEq, Repr

/-- The prefix table in priority order (R140), entry 1 as 90_conflicts.md C1 corrects it. -/
def prefixTable : List PrefixEntry :=
  [ ⟨0xFC, 0x88, .rmr⟩,
    ⟨0xFE, 0xA0, .mta⟩,
    ⟨0xFE, 0xA2, .atm⟩,
    ⟨0xFE, 0xC6, .irm⟩,
    ⟨0xF0, 0xB0, .ir⟩ ]

/-- The test of one entry (R141). -/
def PrefixEntry.hits (e : PrefixEntry) (b0 : Byte) : Bool := b0 &&& e.mask == e.value

/-- `matchPrefix` (R141): the first entry that matches wins; `none` is `Unrecognized`. -/
def matchPrefix (b0 : Byte) : Option Variant :=
  (prefixTable.find? fun e => e.hits b0).map PrefixEntry.variant

/-! ### Fixed fields (R120) and lengths (R77, R146) -/

/-- `extractFields` (R120). -/
def extractFields (v : Variant) (b0 b1 : Byte) : Fields :=
  match v with
  | .rmr => .rmr (b0.extractLsb' 1 1) (b0.extractLsb' 0 1)
      (b1.extractLsb' 6 2) (b1.extractLsb' 3 3) (b1.extractLsb' 0 3)
  | .irm => .irm (b0.extractLsb' 0 1)
      (b1.extractLsb' 6 2) (b1.extractLsb' 3 3) (b1.extractLsb' 0 3)
  | .ir => .ir (b0.extractLsb' 3 1) (b0.extractLsb' 0 3)
  | .mta => .mta (b0.extractLsb' 0 1)
  | .atm => .atm (b0.extractLsb' 0 1)

/-- `dispLen` (R77). -/
def dispLen (mod : ModField) (rm : RegCode) (directSpecial : Bool) : Nat :=
  match mod with
  | 0 => if directSpecial && rm == 6 then 2 else 0
  | 1 => 1
  | 2 => 2
  | 3 => 0

/-- `instrLen` (R146). -/
def instrLen : Fields → Nat
  | .rmr _ _ mod _ rm => 2 + dispLen mod rm true
  | .irm w mod _ rm => 3 + w.toNat + dispLen mod rm false
  | .ir w _ => 2 + w.toNat
  | .mta w => 2 + w.toNat
  | .atm w => 2 + w.toNat

/-- `classify` (R144): the variant and the length, from the two peeked bytes. -/
def classify (b0 b1 : Byte) : Option (Variant × Nat) :=
  (matchPrefix b0).map fun v => (v, instrLen (extractFields v b0 b1))

/-! ### Variable fields (R128 to R130) -/

/-- `extractDisp` (R128), for RMR and IRM. -/
def extractDisp (v : Variant) (mod : ModField) (rm : RegCode) (s : List Byte) :
    Disp × Option Word16 :=
  match mod with
  | 0 =>
    if v == .rmr && rm == 6 then (.noDisp, some (word (spanByte s 2) (spanByte s 3)))
    else (.noDisp, none)
  | 1 => (.disp8 (spanByte s 2), none)
  | 2 => (.disp16 (word (spanByte s 2) (spanByte s 3)), none)
  | 3 => (.noDisp, none)

/-- The value of `extractData` (R129), the first data byte being byte `k` of the span. -/
def extractData (w : Bit) (k : Nat) (s : List Byte) : Word16 :=
  if w = 0 then zext16 (spanByte s k) else word (spanByte s k) (spanByte s (k + 1))

/-- `extractAddr` (R130), for MTA and ATM. -/
def extractAddr (w : Bit) (s : List Byte) : Word16 :=
  if w = 1 then word (spanByte s 1) (spanByte s 2) else zext16 (spanByte s 1)

/-- The instruction in a span that `classify` has given the variant `v` and whose length is the one
it gave. -/
def decodeSpan (v : Variant) (s : List Byte) : Instr :=
  match extractFields v (spanByte s 0) (spanByte s 1) with
  | .rmr d w mod reg rm =>
    .rmr d w mod reg rm (extractDisp .rmr mod rm s).1 (extractDisp .rmr mod rm s).2
  | .irm w mod reg rm =>
    .irm w mod reg rm (extractDisp .irm mod rm s).1 (extractData w (2 + dispLen mod rm false) s)
  | .ir w reg => .ir w reg (extractData w 1 s)
  | .mta w => .mta w (extractAddr w s)
  | .atm w => .atm w (extractAddr w s)

/-- Why bytes hold no instruction (60_exceptions.md R220). -/
inductive DecodeError where
  /-- Fewer than two bytes: `EndOfStream` (R223). -/
  | endOfStream
  /-- Byte 0 matches none of the five prefixes (R221). -/
  | unrecognizedOpcode (b0 : Byte)
  /-- The length runs past the bytes there are (R222). -/
  | truncatedInstruction (b0 : Byte)
deriving DecidableEq, Repr

/-- The instruction at the front of a byte stream, with the bytes after it, in the order of tests
of R227. -/
def decode : List Byte → Except DecodeError (Instr × List Byte)
  | b0 :: b1 :: rest =>
    match classify b0 b1 with
    | none => .error (.unrecognizedOpcode b0)
    | some (v, len) =>
      if (b0 :: b1 :: rest).length < len then .error (.truncatedInstruction b0)
      else .ok (decodeSpan v ((b0 :: b1 :: rest).take len), (b0 :: b1 :: rest).drop len)
  | _ => .error .endOfStream

/-! ### Encoder (R71 to R75) -/

/-- The bytes of a 16-bit field (R53). -/
def wordBytes (v : Word16) : List Byte := [loByte v, hiByte v]

/-- The bytes of a field whose width follows `w` (R73, R74). -/
def valueBytes (w : Bit) (v : Word16) : List Byte :=
  if w = 1 then wordBytes v else [loByte v]

/-- The bytes of a displacement (R71, R72). -/
def dispBytes : Disp → List Byte
  | .noDisp => []
  | .disp8 v => [v]
  | .disp16 v => wordBytes v

/-- The bytes of RMR's direct address (R71). -/
def directBytes : Option Word16 → List Byte
  | none => []
  | some a => wordBytes a

/-- The mod/r/m byte (R71, R72). -/
def modRmByte (mod : ModField) (reg rm : RegCode) : Byte := mod ++ reg ++ rm

/-- The bytes of an instruction, in increasing offset order (R54). -/
def encode : Instr → List Byte
  | .rmr d w mod reg rm disp addr =>
    (0b100010#6 ++ d ++ w) :: modRmByte mod reg rm :: (dispBytes disp ++ directBytes addr)
  | .mta w addr => (0b1010000#7 ++ w) :: valueBytes w addr
  | .atm w addr => (0b1010001#7 ++ w) :: valueBytes w addr
  | .irm w mod reg rm disp data =>
    (0b1100011#7 ++ w) :: modRmByte mod reg rm :: (dispBytes disp ++ valueBytes w data)
  | .ir w reg data => (0b1011#4 ++ w ++ reg) :: valueBytes w data

/-! ### A word as the opcode table numbers its bits -/

/-- The longest instruction, in bytes (R147). -/
def maxInstrLen : Nat := 6

/-- The bytes of an instruction whose low `nbits` bits are `w`, the first byte being bits 7..0; the
bits above `nbits` are 0. -/
def tableBytes (nbits w : Nat) : List Byte :=
  (List.range maxInstrLen).map fun k => BitVec.ofNat 8 ((w % 2 ^ nbits) / 256 ^ k)

/-- The instruction the decoder reads from a table word. -/
def decodeTableWord (nbits w : Nat) : Option Instr :=
  match decode (tableBytes nbits w) with
  | .ok (i, _) => some i
  | .error _ => none

end Sys2Proof
end

