-- ==== Sys2Proof/Config.lean ====
section
/-! DEFINITION. What an implementation fixes and the spec leaves open (00_scope.md R6), and the one
free value of the model (93_implementation_defined.md U6). `BUF_CAP` and `N_CURSORS` themselves are
held in State, so that a claim about every state is a claim about every capacity and every number
of cursors; here stand the numbers State.reset takes and the width that follows from a capacity. -/

namespace Sys2Proof

/-- DESIGN CHOICE (log 5): the capacity State.reset takes. The spec leaves `BUF_CAP` OPEN, an
integer of at least 2 (R6, D2). -/
def Config.resetBufCap : Nat := 65536

/-- The number of cursor instances State.reset takes: the spec's default (R6, D12). -/
def Config.resetCursors : Nat := 1

/-- `POS_W`, the least `n` with `2^n > BUF_CAP` (R6), for a capacity of at least 1. -/
def Config.posW (bufCap : Nat) : Nat := Nat.log2 bufCap + 1

/-- Free value (log 6): the byte at a buffer offset no host load has written. "Any value" (U6); it
has no body, so nothing can be proved of it but that reading one offset twice gives the same byte
(R51). -/
opaque Config.unloadedByte : Nat → Byte

end Sys2Proof
end

