-- ==== Sys2Proof/Machine/State.lean ====
section
/-! DEFINITION. The state of the core as plain data: the shared byte buffer, the cursor instances
with every register of 10_state.md, and the host interface of 44_cursor.md. State.reset is the
machine after power-on reset (70_reset_and_hazards.md R250). -/

namespace Sys2Proof.Machine

/-! ### Decoded record (R31, R32) -/

/-- The width of immediate data (R79, R81). -/
inductive ImmWidth where
  | w8
  | w16
deriving DecidableEq, Repr

/-- An operand of a decoded instruction (R79). -/
inductive Operand where
  /-- A register. -/
  | reg (r : RegId)
  /-- A memory reference through the effective-address expression `e` (R103). -/
  | memEA (e : EaCode) (disp : Disp) (w : Bit)
  /-- A memory reference to a direct absolute address, unsigned (R82). -/
  | memDirect (a : Word16) (w : Bit)
  /-- Immediate data, raw bits (R81). -/
  | imm (v : Word16) (width : ImmWidth)
  /-- A memory operand the source gives no meaning (R86). -/
  | unresolved (w : Bit)
deriving DecidableEq, Repr

/-- The part of the record that a variant's decoding rule returns (R161 to R165). A field that
carries no value for the variant is `none`, but for `disp`, which is then `noDisp`, as R163 to R165
return it; the record's field `disp` of R32, with its `None`, is `Record.disp?` (log 17). -/
structure Decoded where
  w : Bit
  d : Option Bit
  mod : Option ModField
  reg : Option RegCode
  rm : Option RegCode
  disp : Disp
  addr : Option Word16
  data : Option (Word16 × ImmWidth)
  dst : Operand
  src : Operand
deriving DecidableEq, Repr

/-- The decoded instruction record (R32, R166). Its field `disp` as R32 has it is `Record.disp?`. -/
structure Record extends Decoded where
  variant : Variant
  start : Nat
  len : Nat
  bytes : List Byte
deriving DecidableEq, Repr

/-! ### Cursor instance (R23 to R31) -/

/-- `PHASE` (R28). -/
inductive Phase where
  | idle
  | active
  | ended
  | faulted
deriving DecidableEq, Repr

/-- `ERR` (R29). The reserved code 3 is never written and has no constructor. -/
inductive ErrCode where
  | none
  | unrecognizedOpcode
  | truncatedInstruction
deriving DecidableEq, Repr

/-- The registers one cursor instance owns (R37). Positions are natural numbers (R30). -/
structure Cursor where
  /-- `POS` (R23). -/
  pos : Nat
  /-- `BASE` (R27). -/
  base : Nat
  /-- `END` (R27). -/
  endOff : Nat
  /-- `PHASE` (R28). -/
  phase : Phase
  /-- `ERR` (R29). -/
  err : ErrCode
  /-- `ERR_POS` (R29). -/
  errPos : Nat
  /-- `ERR_BYTE` (R29). -/
  errByte : Byte
  /-- `RES` with `RES_VALID` (R31, log 7): `some r` is `RES_VALID = 1` with `RES = r`, and `none` is
  `RES_VALID = 0`, where `RES` is no value. -/
  res : Option Record
deriving DecidableEq, Repr

/-- A cursor instance in its reset state (R250). -/
def Cursor.reset : Cursor where
  pos := 0
  base := 0
  endOff := 0
  phase := .idle
  err := .none
  errPos := 0
  errByte := 0
  res := none

/-! ### Host interface (R180, R181) -/

/-- A request on the command port: the cursor id it names (R189), the 3-bit command code, and the
operands: `base` and `len` of `START`, `index` of `READ` in `op1` (R181). -/
structure Request where
  cursor : Nat
  code : BitVec 3
  op1 : Nat
  op2 : Nat
deriving DecidableEq, Repr

/-- The five commands (R180). -/
inductive Command where
  | reset
  | start (base len : Nat)
  | hasNext
  | next
  | read (index : Nat)
deriving DecidableEq, Repr

/-- The response codes (R181). -/
inductive RespCode where
  | ok
  | endOfStream
  | unrecognizedOpcode
  | truncatedInstruction
  | notActive
  | badRange
deriving DecidableEq, Repr

/-- What a response carries beside its code (R181). -/
inductive Payload where
  | none
  | bit (b : Bool)
  | record (r : Record)
  | word (v : Word32)
deriving DecidableEq, Repr

/-- One response (R180). -/
structure Response where
  code : RespCode
  payload : Payload
deriving DecidableEq, Repr

/-- A move of the host (log 1). -/
inductive HostEvent where
  /-- A command request (R180). -/
  | command (r : Request)
  /-- Loading bytes into `BUF` from offset `a` on (R62, R253 step 1). -/
  | load (a : Nat) (bytes : List Byte)
  /-- Power-on reset, which resets all cursor instances (R250). -/
  | powerOn
  /-- A write to the read-only register map of a cursor instance (R33). -/
  | writeMap (cursor index : Nat) (v : Word32)
deriving DecidableEq, Repr

/-! ### Memory and state -/

/-- The bytes of `BUF` that host loads have written, by strictly rising offset. An offset that is
not listed reads as the free value `Config.unloadedByte` (log 6). -/
abbrev Memory := List Host.Cell

/-- The canonical form of a memory: offsets strictly rise, so no offset is listed twice. -/
abbrev Memory.wf (m : Memory) : Prop := m.Pairwise fun x y => x.1 < y.1

/-- The machine. -/
structure State where
  /-- `BUF_CAP` (R6, log 5). -/
  bufCap : Nat
  /-- `BUF` (R50). -/
  buf : Memory
  /-- The cursor instances; `N_CURSORS` is their number (R6, R37). -/
  cursors : List Cursor
  /-- The cursor instance the command in progress names (R180, log 3). -/
  sel : Nat
  /-- The host's moves still to come, the next one first (log 1). -/
  pending : List HostEvent
  /-- The response of the last command; none before the first (R180, log 4). -/
  response : Option Response
deriving DecidableEq, Repr

/-- The machine right after power-on reset (R250), with the parameters of log 5 and no host move. -/
def State.reset : State where
  bufCap := Config.resetBufCap
  buf := []
  cursors := List.replicate Config.resetCursors Cursor.reset
  sel := 0
  pending := []
  response := none

/-! ### How a step can stop -/

/-- Stops with a fault. -/
inductive Fault where
  /-- Raised by `READ` of an index whose fields the register map marks unspecified, while
  `RES_VALID = 0`: "a fault, never a number" (R31, R186, U2). Safe. -/
  | resNotValid
  /-- Raised by an access to an offset at or above `BUF_CAP`, which does not exist (R50): by a host
  load, and by `NEXT` only in states no run reaches (R57, log 14). Safe. -/
  | bufOutOfRange
deriving DecidableEq, Repr

/-- Refusals. -/
inductive Refusal where
  /-- Raised by an arm of exec whose instruction has no meaning yet. No arm raises it. Safe. -/
  | notModelled (mnemonic : String)
  /-- Raised by a host load of bytes that lie in the region of an `ACTIVE` pass: the spec's model
  "has no host step that writes BUF during a pass" (R62, U5, log 8). Safe. -/
  | hostWroteActivePass
deriving DecidableEq, Repr

/-- The outcome of a step of this machine. -/
abbrev Result := Host.Outcome State Fault Refusal

end Sys2Proof.Machine
end

