-- ==== Sys2Proof/Machine/Operands.lean ====
section
/-! DEFINITION. The register name table and the effective-address resolver (40_lookup_tables.md),
the values operands stand for (30_encoding.md R78, R81), the operand `mod` and `rm` select
(43_mov_variants.md R160), and the packed operand form (R80). -/

namespace Sys2Proof.Machine

/-! ### Register name table (R100) -/

/-- The sixteen register names (R100). -/
inductive RegName where
  | ax | cx | dx | bx | sp | bp | si | di
  | al | cl | dl | bl | ah | ch | dh | bh
deriving DecidableEq, Repr

/-- `RegId = w ++ code` (R21). -/
def regId (w : Bit) (code : RegCode) : RegId := w ++ code

/-- The names for `is_word = 1`, codes 0 to 7 (R100). -/
def wordRegName (code : RegCode) : RegName :=
  match code with
  | 0 => .ax
  | 1 => .cx
  | 2 => .dx
  | 3 => .bx
  | 4 => .sp
  | 5 => .bp
  | 6 => .si
  | 7 => .di

/-- The names for `is_word = 0`, codes 0 to 7 (R100). -/
def byteRegName (code : RegCode) : RegName :=
  match code with
  | 0 => .al
  | 1 => .cl
  | 2 => .dl
  | 3 => .bl
  | 4 => .ah
  | 5 => .ch
  | 6 => .dh
  | 7 => .bh

/-- `regName` (R100). -/
def regName (isWord : Bit) (code : RegCode) : RegName :=
  if isWord = 1 then wordRegName code else byteRegName code

/-- The name of a register identifier (R21, R101). -/
def regIdName (r : RegId) : RegName := regName (r.extractLsb' 3 1) (r.extractLsb' 0 3)

/-- The accumulator, code 0 with the instruction's `w` (R102). -/
def accumulator (w : Bit) : Operand := .reg (regId w 0)

/-! ### Effective-address resolver (R103) -/

/-- The base and index an `rm` value names (R103). -/
structure EaExpr where
  base : Option RegName
  index : Option RegName
deriving DecidableEq, Repr

/-- `eaResolve` (R103), a total function of `rm` alone (R104). -/
def eaResolve (rm : EaCode) : EaExpr :=
  match rm with
  | 0 => ⟨some .bx, some .si⟩
  | 1 => ⟨some .bx, some .di⟩
  | 2 => ⟨some .bp, some .si⟩
  | 3 => ⟨some .bp, some .di⟩
  | 4 => ⟨none, some .si⟩
  | 5 => ⟨none, some .di⟩
  | 6 => ⟨some .bp, none⟩
  | 7 => ⟨some .bx, none⟩

/-! ### Displacements and immediates -/

/-- `sext_16` (R8). -/
def sext16 (v : Byte) : Word16 := v.signExtend 16

/-- `signed_8` (R8). -/
def signed8 (v : Byte) : Int := if v.toNat < 0x80 then v.toNat else (v.toNat : Int) - 0x100

/-- `signed_16` (R8). -/
def signed16 (v : Word16) : Int := if v.toNat < 0x8000 then v.toNat else (v.toNat : Int) - 0x10000

/-- The integer a displacement stands for (R78); 0 where there is none. -/
def dispValue : Disp → Int
  | .noDisp => 0
  | .disp8 v => signed8 v
  | .disp16 v => signed16 v

/-- The 16-bit two's-complement form of a displacement (R33 `RES_DISP`, R78). -/
def dispWord : Disp → Word16
  | .noDisp => 0
  | .disp8 v => sext16 v
  | .disp16 v => v

/-- The width of immediate data: 8 when `w = 0` and 16 when `w = 1` (R81). -/
def immWidth (w : Bit) : ImmWidth := if w = 1 then .w16 else .w8

/-! ### The r/m operand (R160) -/

/-- `rmOperand` (R160), from the fields and what `extractDisp` gave: `mod = 11` is a register;
`mod = 00, rm = 110` is the direct address the span holds, and `Unresolved` where it holds none (IRM,
R86); all else is a memory reference through `rm`. -/
def rmOperand (w : Bit) (mod : ModField) (rm : RegCode) (disp : Disp) (addr : Option Word16) :
    Operand :=
  if mod = 3 then .reg (regId w rm)
  else if mod = 0 ∧ rm = 6 then
    match addr with
    | some a => .memDirect a w
    | none => .unresolved w
  else .memEA rm disp w

/-! ### Packed operand form (R80) -/

/-- The three fields of the packed form, from bit 7 down: the width bit, bits 6:3, the kind. -/
def packFields (w : Bit) (mid : BitVec 4) (kind : BitVec 3) : Byte := w ++ mid ++ kind

/-- The packed form of an operand (R80). -/
def Operand.pack : Operand → Byte
  | .reg r => packFields (r.extractLsb' 3 1) r 1
  | .memEA e _ w => packFields w (0#1 ++ e) 2
  | .memDirect _ w => packFields w 0 3
  | .imm _ .w8 => packFields 0 0 4
  | .imm _ .w16 => packFields 1 0 4
  | .unresolved w => packFields w 0 5

end Sys2Proof.Machine
end

