-- ==== Sys2Proof/Machine/Ops.lean ====
section
/-! DEFINITION. The named operations on memory and registers: reading `BUF` (20_memory.md), choosing
and writing a cursor instance, responding, entering an error (60_exceptions.md R226), beginning a
pass (44_cursor.md R183), and delivering a decoded record (R185, last four lines). -/

namespace Sys2Proof.Machine

/-! ### Codes -/

/-- The code of a variant (R70). -/
def variantCode : Variant → BitVec 3
  | .rmr => 0
  | .irm => 1
  | .ir => 2
  | .mta => 3
  | .atm => 4

/-- The 2-bit encoding of `PHASE` (R28). -/
def phaseCode : Phase → BitVec 2
  | .idle => 0
  | .active => 1
  | .ended => 2
  | .faulted => 3

/-- The 2-bit encoding of `ERR` (R29). -/
def errCode : ErrCode → BitVec 2
  | .none => 0
  | .unrecognizedOpcode => 1
  | .truncatedInstruction => 2

/-- The response codes (R181). -/
def respCode : RespCode → BitVec 3
  | .ok => 0
  | .endOfStream => 1
  | .unrecognizedOpcode => 2
  | .truncatedInstruction => 3
  | .notActive => 4
  | .badRange => 5

/-- The response that reports `ERR`: its code is `ERR`'s value plus 1 (R185, log 15). -/
def errResponse : ErrCode → RespCode
  | .none => .endOfStream
  | .unrecognizedOpcode => .unrecognizedOpcode
  | .truncatedInstruction => .truncatedInstruction

/-- The command a request's code names (R181); none for the unused codes 5 to 7. -/
def Request.command (r : Request) : Option Command :=
  match r.code with
  | 0 => some .reset
  | 1 => some (.start r.op1 r.op2)
  | 2 => some .hasNext
  | 3 => some .next
  | 4 => some (.read r.op1)
  | 5 => none
  | 6 => none
  | 7 => none

/-! ### Memory (R50, R51) -/

/-- The byte a load has left at an offset, if any has. -/
def Memory.lookup : Memory → Nat → Option Byte
  | [], _ => none
  | (k, v) :: rest, a => if k = a then some v else Memory.lookup rest a

/-- Write one byte, keeping the offsets strictly rising. -/
def Memory.insert : Memory → Nat → Byte → Memory
  | [], a, b => [(a, b)]
  | (k, v) :: rest, a, b =>
    if a < k then (a, b) :: (k, v) :: rest
    else if a = k then (a, b) :: rest
    else (k, v) :: Memory.insert rest a b

/-- Write consecutive bytes from an offset on. -/
def Memory.insertAll : Memory → Nat → List Byte → Memory
  | m, _, [] => m
  | m, a, b :: bs => Memory.insertAll (m.insert a b) (a + 1) bs

/-- `MemRead(a, 1)` (R9, R55): the byte at an offset of the buffer, none where no such offset
exists. An offset never loaded holds the free value (log 6). -/
def State.memRead (s : State) (a : Nat) : Option Byte :=
  if a < s.bufCap then some ((s.buf.lookup a).getD (Config.unloadedByte a)) else none

/-- `n` bytes from an offset on, in increasing offset order (R54). -/
def State.slice (s : State) (a : Nat) : Nat → Option (List Byte)
  | 0 => some []
  | n + 1 =>
    match s.memRead a, State.slice s (a + 1) n with
    | some b, some bs => some (b :: bs)
    | _, _ => none

/-! ### Cursor instances and responses -/

/-- The cursor instance the command in progress names; none for an id outside
`0 .. N_CURSORS - 1` (R189). -/
def State.cursor? (s : State) : Option Cursor := s.cursors[s.sel]?

/-- Write all registers of the named cursor instance at once (R180). -/
def State.setCursor (s : State) (c : Cursor) : State :=
  { s with cursors := s.cursors.set s.sel c }

/-- Begin a command that names cursor instance `id` (R189). -/
def State.select (s : State) (id : Nat) : State := { s with sel := id }

/-- End a command with its response (R180). -/
def State.respond (s : State) (code : RespCode) (p : Payload) : State :=
  { s with response := some ⟨code, p⟩ }

/-- A refused command: `BAD_RANGE`, no state change (R225). -/
def State.badRange (s : State) : State := s.respond .badRange .none

/-! ### Errors: entry and the ways out -/

/-- Entering an error (R226): the phase becomes `FAULTED`, the error, the offset of the opcode byte
and the byte are recorded, `RES_VALID` becomes 0, and nothing else is written. -/
def Cursor.enterError (c : Cursor) (e : ErrCode) (b0 : Byte) : Cursor :=
  { c with phase := .faulted, err := e, errPos := c.pos, errByte := b0, res := none }

/-- The one operation by which a command raises an error: entry, and the response that reports it
(R221, R222). -/
def State.raise (s : State) (c : Cursor) (e : ErrCode) (b0 : Byte) : State :=
  (s.setCursor (c.enterError e b0)).respond (errResponse e) .none

/-- The register writes of a `START` that is in range (R183), the way out of an error other than
`RESET` (R228). -/
def Cursor.beginPass (base len : Nat) : Cursor where
  pos := base
  base := base
  endOff := base + len
  phase := .active
  err := .none
  errPos := 0
  errByte := 0
  res := none

/-- `RES_VALID <- 0` (R185). -/
def Cursor.dropResult (c : Cursor) : Cursor := { c with res := none }

/-- The pass reaches its end (R223). -/
def Cursor.endPass (c : Cursor) : Cursor := { c with phase := .ended, res := none }

/-! ### Delivering a record -/

/-- The whole record of an instruction that starts at an offset (R166): the variant's decoding with
the variant, the start, the length and the span. -/
def recordOf (i : Instr) (start : Nat) (body : Decoded) : Record where
  toDecoded := body
  variant := i.variant
  start := start
  len := (encode i).length
  bytes := encode i

/-- The variants whose record has a displacement field that carries a value (R32). -/
def hasDisp : Variant → Bool
  | .rmr => true
  | .irm => true
  | .ir => false
  | .mta => false
  | .atm => false

/-- The record's field `disp` (R32): a displacement, `NoDisp` among them, for RMR and IRM, and `None`
elsewhere, where the decoding rule returns `NoDisp` (R163 to R165, log 17). -/
def Record.disp? (r : Record) : Option Disp :=
  if hasDisp r.variant then some r.disp else none

/-- `RES <- record`, `RES_VALID <- 1`, `POS <- POS + len` (R185). -/
def Cursor.accept (c : Cursor) (r : Record) : Cursor :=
  { c with res := some r, pos := c.pos + r.len }

/-- The end of a `NEXT` that has accepted the span of `i`, whose decoding is `body` (R185): the
record is written, `POS` advances, and the response is `OK` with the record. -/
def State.deliver (s : State) (i : Instr) (body : Decoded) : State :=
  match s.cursor? with
  | none => s.badRange
  | some c =>
    (s.setCursor (c.accept (recordOf i c.pos body))).respond .ok (.record (recordOf i c.pos body))

end Sys2Proof.Machine
end

