-- ==== Sys2Proof/Machine/Mov.lean ====
section
/-! DEFINITION. The five MOV variants (43_mov_variants.md R161 to R165): what a `NEXT` that has
accepted the span of each delivers. The core moves no data (00_scope.md R5 item 4); the effect of an
instruction is its record and the advance of `POS`. No variant raises an error (R167). -/

namespace Sys2Proof.Machine

/-! ### Decoding rules -/

/-- `decodeRMR` (R161): `d = 1` makes the `reg` operand the destination. -/
def decodeRmr (d w : Bit) (mod : ModField) (reg rm : RegCode) (disp : Disp)
    (addr : Option Word16) : Decoded where
  w := w
  d := some d
  mod := some mod
  reg := some reg
  rm := some rm
  disp := disp
  addr := addr
  data := none
  dst := if d = 1 then .reg (regId w reg) else rmOperand w mod rm disp addr
  src := if d = 1 then rmOperand w mod rm disp addr else .reg (regId w reg)

/-- `decodeIRM` (R162). The span never holds an address; `reg` is reported raw (R126). -/
def decodeIrm (w : Bit) (mod : ModField) (reg rm : RegCode) (disp : Disp) (data : Word16) :
    Decoded where
  w := w
  d := none
  mod := some mod
  reg := some reg
  rm := some rm
  disp := disp
  addr := none
  data := some (data, immWidth w)
  dst := rmOperand w mod rm disp none
  src := .imm data (immWidth w)

/-- `decodeIR` (R163). It returns `NoDisp`, where the record's field of R32 is `None`
(`Record.disp?`, log 17). -/
def decodeIr (w : Bit) (reg : RegCode) (data : Word16) : Decoded where
  w := w
  d := none
  mod := none
  reg := some reg
  rm := none
  disp := .noDisp
  addr := none
  data := some (data, immWidth w)
  dst := .reg (regId w reg)
  src := .imm data (immWidth w)

/-- `decodeMTA` (R164). It returns `NoDisp`, where the record's field of R32 is `None`
(`Record.disp?`, log 17). -/
def decodeMta (w : Bit) (addr : Word16) : Decoded where
  w := w
  d := none
  mod := none
  reg := none
  rm := none
  disp := .noDisp
  addr := some addr
  data := none
  dst := accumulator w
  src := .memDirect addr w

/-- `decodeATM` (R165). It returns `NoDisp`, where the record's field of R32 is `None`
(`Record.disp?`, log 17). -/
def decodeAtm (w : Bit) (addr : Word16) : Decoded where
  w := w
  d := none
  mod := none
  reg := none
  rm := none
  disp := .noDisp
  addr := some addr
  data := none
  dst := .memDirect addr w
  src := accumulator w

/-! ### Meanings -/

/-- RegisterMemoryToFromRegister (R161). -/
def execRmr (d w : Bit) (mod : ModField) (reg rm : RegCode) (disp : Disp) (addr : Option Word16)
    (s : State) : Result :=
  .next (s.deliver (.rmr d w mod reg rm disp addr) (decodeRmr d w mod reg rm disp addr))

/-- MemoryToAccumulator (R164). -/
def execMta (w : Bit) (addr : Word16) (s : State) : Result :=
  .next (s.deliver (.mta w addr) (decodeMta w addr))

/-- AccumulatorToMemory (R165). -/
def execAtm (w : Bit) (addr : Word16) (s : State) : Result :=
  .next (s.deliver (.atm w addr) (decodeAtm w addr))

/-- ImmediateToRegisterMemory (R162). -/
def execIrm (w : Bit) (mod : ModField) (reg rm : RegCode) (disp : Disp) (data : Word16)
    (s : State) : Result :=
  .next (s.deliver (.irm w mod reg rm disp data) (decodeIrm w mod reg rm disp data))

/-- ImmediateToRegister (R163). -/
def execIr (w : Bit) (reg : RegCode) (data : Word16) (s : State) : Result :=
  .next (s.deliver (.ir w reg data) (decodeIr w reg data))

end Sys2Proof.Machine
end

