-- ==== Sys2Proof/Machine/Dispatch.lean ====
section
/-! DEFINITION. The one match from an instruction to its meaning. An instruction runs when a `NEXT`
has accepted its span (44_cursor.md R185, 43_mov_variants.md R166). -/

namespace Sys2Proof.Machine

def exec (i : Instr) (s : State) : Host.Outcome State Fault Refusal :=
  match i with
  | .rmr d w mod reg rm disp addr => Sys2Proof.Machine.execRmr d w mod reg rm disp addr s
  | .mta w addr => Sys2Proof.Machine.execMta w addr s
  | .atm w addr => Sys2Proof.Machine.execAtm w addr s
  | .irm w mod reg rm disp data => Sys2Proof.Machine.execIrm w mod reg rm disp data s
  | .ir w reg data => Sys2Proof.Machine.execIr w reg data s

end Sys2Proof.Machine
end

