-- ==== Sys2Proof/Machine/Flags.lean ====
section
/-! DEFINITION. The status bits of a cursor instance. The core has no condition codes and no
instruction computes a flag (10_state.md R34); what a host can test are `RES_VALID`, `HAS_NEXT` and
the fields of `STATUS` (R33). -/

namespace Sys2Proof.Machine

/-- `RES_VALID` (R31). -/
def Cursor.resValid (c : Cursor) : Bool := c.res.isSome

/-- `HAS_NEXT` (R184): a pass is active and at least two bytes of it remain. -/
def Cursor.hasNext (c : Cursor) : Bool := c.phase == .active && decide (c.pos + 1 < c.endOff)

/-- The `STATUS` register: `PHASE` in 1:0, `ERR` in 3:2, `RES_VALID` in 4, `HAS_NEXT` in 5, and 0
above (R33). -/
def Cursor.statusWord (c : Cursor) : Word32 :=
  0#26 ++ BitVec.ofBool c.hasNext ++ BitVec.ofBool c.resValid ++ errCode c.err ++ phaseCode c.phase

end Sys2Proof.Machine
end

