-- ==== Sys2Proof/Machine/RegMap.lean ====
section
/-! DEFINITION. The read-only register map of a cursor instance (10_state.md R33) and `READ` of one
of its registers (44_cursor.md R186). -/

namespace Sys2Proof.Machine

/-- A position register as a 32-bit word (R33; log 10 for a `POS_W` above 32). -/
def posWord (n : Nat) : Word32 := BitVec.ofNat 32 n

/-- Whether a field carries a value, as one bit. -/
def validBit {α : Type} (x : Option α) : Bit := BitVec.ofBool x.isSome

/-- `RES_INFO`, from bit 31 down: unused, `rm` 20:18, `reg` valid 17, `reg` 16:14, `mod` 13:12,
`mod`/`rm` valid 11, `d` valid 10, `d` 9, `w` 8, unused 7, `len` 6:4, unused 3, `variant` 2:0
(R33). -/
def Record.infoWord (r : Record) : Word32 :=
  0#11 ++ r.rm.getD 0 ++ validBit r.reg ++ r.reg.getD 0 ++ r.mod.getD 0 ++ validBit r.mod ++
    validBit r.d ++ r.d.getD 0 ++ r.w ++ 0#1 ++ BitVec.ofNat 3 r.len ++ 0#1 ++ variantCode r.variant

/-- `RES_BYTES_LO`: bytes 0 to 3, byte 0 lowest; unused bytes read 0 (R33). -/
def Record.bytesLo (r : Record) : Word32 :=
  r.bytes.getD 3 0 ++ r.bytes.getD 2 0 ++ r.bytes.getD 1 0 ++ r.bytes.getD 0 0

/-- `RES_BYTES_HI`: bytes 4 and 5, packed the same way (R33). -/
def Record.bytesHi (r : Record) : Word32 :=
  0#16 ++ r.bytes.getD 5 0 ++ r.bytes.getD 4 0

/-- The kind of a displacement in `RES_DISP` (R33). -/
def dispKind : Disp → BitVec 2
  | .noDisp => 0
  | .disp8 _ => 1
  | .disp16 _ => 2

/-- `RES_DISP`: the kind in 1:0 and the two's-complement value in 31:16 (R33); 0 for a variant whose
record has no `disp` (R32). -/
def Record.dispRegister (r : Record) : Word32 :=
  match r.disp? with
  | none => 0
  | some d => dispWord d ++ 0#14 ++ dispKind d

/-- `RES_ADDR`: the address in 15:0 and its valid bit 16 (R33). -/
def Record.addrRegister (r : Record) : Word32 := 0#15 ++ validBit r.addr ++ r.addr.getD 0

/-- The width bit of `RES_DATA` (R33). -/
def widthBit : ImmWidth → Bit
  | .w8 => 0
  | .w16 => 1

/-- `RES_DATA`: the value in 15:0, the width in 16 and the valid bit 17 (R33). -/
def Record.dataRegister (r : Record) : Word32 :=
  match r.data with
  | none => 0
  | some (v, width) => 0#14 ++ 1#1 ++ widthBit width ++ v

/-- The registers at indices 5 to 13, views of `RES` (R33). -/
def Record.readReg (r : Record) (index : Nat) : Word32 :=
  match index with
  | 5 => r.infoWord
  | 6 => posWord r.start
  | 7 => r.bytesLo
  | 8 => r.bytesHi
  | 9 => r.dispRegister
  | 10 => r.addrRegister
  | 11 => r.dataRegister
  | 12 => (r.dst.pack).setWidth 32
  | 13 => (r.src.pack).setWidth 32
  | _ => 0

/-- The register at an index of the map (R33, R186). `none` is no value: a register whose fields the
map marks unspecified, while `RES_VALID = 0` (R31). An index with no register reads 0. -/
def Cursor.readReg (c : Cursor) (index : Nat) : Option Word32 :=
  if 5 ≤ index ∧ index ≤ 13 then c.res.map fun r => r.readReg index
  else
    match index with
    | 0 => some c.statusWord
    | 1 => some (posWord c.pos)
    | 2 => some (posWord c.endOff)
    | 3 => some (posWord c.errPos)
    | 4 => some (c.errByte.setWidth 32)
    | 14 => some (posWord c.base)
    | _ => some 0

end Sys2Proof.Machine
end

