-- ==== Sys2Proof/Machine/Commands.lean ====
section
/-! DEFINITION. The host's moves: the five commands of a cursor instance (44_cursor.md R180 to R186),
loading the buffer (20_memory.md R62, 70_reset_and_hazards.md R253), power-on reset (R250) and
writes to the register map (R33). -/

namespace Sys2Proof.Machine

/-! ### Commands, on the cursor instance `c` that `sel` names -/

/-- `RESET` (R182). -/
def cmdReset (s : State) : Result := .next ((s.setCursor Cursor.reset).respond .ok .none)

/-- `START(base, len)` (R183). -/
def cmdStart (base len : Nat) (s : State) : Result :=
  if s.bufCap < base + len then .next s.badRange
  else .next ((s.setCursor (Cursor.beginPass base len)).respond .ok .none)

/-- `HAS_NEXT` (R184). -/
def cmdHasNext (c : Cursor) (s : State) : Result := .next (s.respond .ok (.bit c.hasNext))

/-- `READ(index)` (R186): a register that is no value faults (R31). -/
def cmdRead (c : Cursor) (index : Nat) (s : State) : Result :=
  match c.readReg index with
  | some v => .next (s.respond .ok (.word v))
  | none => .fault .resNotValid

/-- The rest of a `NEXT` once both bytes are peeked (R185): classify, check that the span ends
within the pass, slice it, and run the instruction it holds. -/
def nextPeeked (c : Cursor) (b0 b1 : Byte) (s : State) : Result :=
  match classify b0 b1 with
  | none => .next (s.raise c .unrecognizedOpcode b0)
  | some (v, len) =>
    if c.endOff < c.pos + len then .next (s.raise c .truncatedInstruction b0)
    else
      match s.slice c.pos len with
      | some span => exec (decodeSpan v span) s
      | none => .fault .bufOutOfRange

/-- `NEXT` in phase `ACTIVE` (R185): the end of the stream, or the two-byte peek. -/
def nextActive (c : Cursor) (s : State) : Result :=
  if c.pos + 1 < c.endOff then
    match s.memRead c.pos, s.memRead (c.pos + 1) with
    | some b0, some b1 => nextPeeked c b0 b1 s
    | _, _ => .fault .bufOutOfRange
  else .next ((s.setCursor c.endPass).respond .endOfStream .none)

/-- `NEXT` (R185). -/
def cmdNext (c : Cursor) (s : State) : Result :=
  match c.phase with
  | .idle => .next (s.respond .notActive .none)
  | .ended => .next ((s.setCursor c.dropResult).respond .endOfStream .none)
  | .faulted => .next ((s.setCursor c.dropResult).respond (errResponse c.err) .none)
  | .active => nextActive c s

/-- One command on the cursor instance `c` (R180). -/
def runCommand (k : Command) (c : Cursor) (s : State) : Result :=
  match k with
  | .reset => cmdReset s
  | .start base len => cmdStart base len s
  | .hasNext => cmdHasNext c s
  | .next => cmdNext c s
  | .read index => cmdRead c index s

/-- One request: an unused command code or a cursor id outside `0 .. N_CURSORS - 1` is refused with
`BAD_RANGE` (R181, R189, R225). -/
def runRequest (r : Request) (s : State) : Result :=
  match r.command, (s.select r.cursor).cursor? with
  | some k, some c => runCommand k c (s.select r.cursor)
  | _, _ => .next (s.select r.cursor).badRange

/-! ### The host's other moves -/

/-- A cursor instance in phase `ACTIVE` may read one of `n` offsets from `a` on (R57, R62). -/
def Cursor.mayRead (c : Cursor) (a n : Nat) : Bool :=
  c.phase == .active && decide (0 < n ∧ c.base < c.endOff ∧ a < c.endOff ∧ c.base < a + n)

/-- A host load (R62, R253 steps 1 and 5): the bytes must exist (R50) and must not lie in the region
of an active pass. -/
def hostLoad (a : Nat) (bytes : List Byte) (s : State) : Result :=
  if s.bufCap < a + bytes.length then .fault .bufOutOfRange
  else if s.cursors.any fun c => c.mayRead a bytes.length then .refused .hostWroteActivePass
  else .next { s with buf := s.buf.insertAll a bytes }

/-- Power-on reset: every cursor instance is reset, and `BUF` is not (R250). -/
def powerOn (s : State) : Result := .next { s with cursors := s.cursors.map fun _ => Cursor.reset }

/-- One move of the host. A write to the register map is ignored (R33). -/
def runEvent (e : HostEvent) (s : State) : Result :=
  match e with
  | .command r => runRequest r s
  | .load a bytes => hostLoad a bytes s
  | .powerOn => powerOn s
  | .writeMap _ _ _ => .next s

/-! ### Placing an instruction where the next step decodes it -/

/-- The first cursor instance, set so that a `NEXT` decodes at its `POS` with `n` bytes left: a pass
is running with no error, and its end leaves room. -/
def Cursor.readyFor (c : Cursor) (n : Nat) : Cursor :=
  { c with phase := .active, err := .none, errPos := 0, errByte := 0,
           endOff := max c.endOff (c.pos + n) }

/-- The state with an instruction's bytes at `POS` of cursor instance 0, its pass running, room for
the bytes in the buffer, and a `NEXT` of that instance as the host's next move (log 13). -/
def State.placeInstr (s : State) (bytes : List Byte) : State :=
  match s.cursors with
  | [] => s
  | c :: rest =>
    { s with
      bufCap := max s.bufCap (max c.endOff (c.pos + bytes.length))
      buf := s.buf.insertAll c.pos bytes
      cursors := c.readyFor bytes.length :: rest
      pending := .command ⟨0, 3, 0, 0⟩ :: s.pending }

end Sys2Proof.Machine
end

