-- ==== Sys2Proof/Machine/Step.lean ====
section
/-! DEFINITION. One step of the machine: the host's next move (00_scope.md R10, 44_cursor.md R180). -/

namespace Sys2Proof.Machine

/-- One step takes the host's next move. With no move to take, nothing happens (log 2). -/
def step (s : State) : Host.Outcome State Fault Refusal :=
  match s.pending with
  | [] => .next s
  | e :: rest => runEvent e { s with pending := rest }

/-- The state with a table word's instruction placed where the next step decodes it (log 13). -/
def State.withFetchWord (s : State) (nbits w : Nat) : State :=
  s.placeInstr (tableBytes nbits w)

end Sys2Proof.Machine
end

