-- ==== Sys2Proof/Machine/Render.lean ====
section
/-! DEFINITION. The external renderer as a host-side function from a record to its text line
(45_render_contract.md R200 to R206). It is no part of the core (00_scope.md R5 item 1) and no step
calls it (log 18). -/

namespace Sys2Proof.Machine

/-- Why a record has no text. -/
inductive RenderError where
  /-- An `Unresolved` operand has no text; the renderer reports an error (R206). -/
  | unresolvedOperand
deriving DecidableEq, Repr

/-- The spelling of a register name (R100). -/
def RegName.spelling : RegName → String
  | .ax => "ax"
  | .cx => "cx"
  | .dx => "dx"
  | .bx => "bx"
  | .sp => "sp"
  | .bp => "bp"
  | .si => "si"
  | .di => "di"
  | .al => "al"
  | .cl => "cl"
  | .dl => "dl"
  | .bl => "bl"
  | .ah => "ah"
  | .ch => "ch"
  | .dh => "dh"
  | .bh => "bh"

/-- The expression string (R103): base and index joined by a plus sign, or the one there is. -/
def EaExpr.spelling (e : EaExpr) : String :=
  match e.base, e.index with
  | some b, some i => b.spelling ++ "+" ++ i.spelling
  | some b, none => b.spelling
  | none, some i => i.spelling
  | none, none => ""

/-- The integer an immediate is printed as, signed or unsigned by the parameter `IMM_SIGNED`
(R205). -/
def immValue (immSigned : Bool) (v : Word16) (width : ImmWidth) : Int :=
  match immSigned, width with
  | true, .w8 => signed8 (v.setWidth 8)
  | true, .w16 => signed16 v
  | false, _ => v.toNat

/-- The word before an immediate (R204): its size for IRM, nothing for IR. -/
def immSizeWord (variant : Variant) (width : ImmWidth) : String :=
  match variant, width with
  | .irm, .w8 => "byte "
  | .irm, .w16 => "word "
  | _, _ => ""

/-- `text` of a memory reference (R203): a displacement of 0 is omitted, and any other stands
inside the brackets with its sign. -/
def memText (e : EaCode) (disp : Disp) : String :=
  if dispValue disp = 0 then "[" ++ (eaResolve e).spelling ++ "]"
  else "[" ++ (eaResolve e).spelling ++ " + " ++ toString (dispValue disp) ++ "]"

/-- `text` of an operand (R201 to R206). -/
def Operand.text (immSigned : Bool) (variant : Variant) : Operand → Except RenderError String
  | .reg r => .ok (regIdName r).spelling
  | .memEA e disp _ => .ok (memText e disp)
  | .memDirect a _ => .ok ("[" ++ toString a.toNat ++ "]")
  | .imm v width => .ok (immSizeWord variant width ++ toString (immValue immSigned v width))
  | .unresolved _ => .error .unresolvedOperand

/-- `render` (R200): destination first. -/
def Record.render (immSigned : Bool) (r : Record) : Except RenderError String :=
  match r.dst.text immSigned r.variant, r.src.text immSigned r.variant with
  | .ok dst, .ok src => .ok ("mov " ++ dst ++ ", " ++ src)
  | .error e, _ => .error e
  | _, .error e => .error e

end Sys2Proof.Machine
end

