-- ==== Sys2Proof/Safety.lean ====
section
/-! DEFINITION. The terms claims use: issuing a move to the machine, the invariant of the states a
run reaches, when a cursor accepts a span, the successive records of a pass, and a reading of the
record of a span in plain arithmetic on its bytes. -/

namespace Sys2Proof.Machine

/-! ### Issuing a move -/

/-- One step of the machine on a move of the host, put before the moves still to come. -/
def State.issue (s : State) (e : HostEvent) : Result := step { s with pending := e :: s.pending }

/-- One step on a command request. -/
def State.request (s : State) (r : Request) : Result := s.issue (.command r)

/-- The `NEXT` request of a cursor instance (R181). -/
def nextRequest (id : Nat) : Request := ⟨id, 3, 0, 0⟩

/-- The cursor instance the command in progress names has accepted a span of `n` bytes (R185): its
pass is active and the span ends within it. -/
def State.Accepts (s : State) (c : Cursor) (n : Nat) : Prop :=
  s.cursor? = some c ∧ c.phase = .active ∧ c.pos + n ≤ c.endOff

/-! ### Records -/

/-- What the decoding rule of an instruction's variant returns (R161 to R165). -/
def decodedOf : Instr → Decoded
  | .rmr d w mod reg rm disp addr => decodeRmr d w mod reg rm disp addr
  | .mta w addr => decodeMta w addr
  | .atm w addr => decodeAtm w addr
  | .irm w mod reg rm disp data => decodeIrm w mod reg rm disp data
  | .ir w reg data => decodeIr w reg data

/-- The record is the decoding of its own bytes (R166): every field but `start` follows from
them. -/
def Record.DecodesItsBytes (r : Record) : Prop :=
  ∃ i : Instr, i.wellFormed = true ∧ r = recordOf i r.start (decodedOf i)

/-! ### Invariant -/

/-- The bounds of a pass (R26) and what `PHASE` says of the other registers (R28, R29, R226,
R250). -/
structure Cursor.Inv (cap : Nat) (c : Cursor) : Prop where
  base_le_pos : c.base ≤ c.pos
  pos_le_end : c.pos ≤ c.endOff
  end_le_cap : c.endOff ≤ cap
  err_iff_faulted : c.err ≠ .none ↔ c.phase = .faulted
  clear_unless_faulted : c.phase ≠ .faulted → c.errPos = 0 ∧ c.errByte = 0
  error_at_pos : c.phase = .faulted → c.errPos = c.pos
  idle_at_reset : c.phase = .idle → c = Cursor.reset
  result_active : c.res ≠ none → c.phase = .active

/-- A valid result is the record of the span just before `POS`, as `BUF` holds it. -/
structure State.ResultInv (s : State) (c : Cursor) (r : Record) : Prop where
  in_pass : c.base ≤ r.start
  ends_at_pos : r.start + r.len = c.pos
  is_span : s.slice r.start r.len = some r.bytes
  decodes : r.DecodesItsBytes

/-- The invariant of the machine. -/
structure State.Inv (s : State) : Prop where
  cap_two : 2 ≤ s.bufCap
  has_cursor : s.cursors ≠ []
  buf_wf : Memory.wf s.buf
  buf_in_cap : ∀ x ∈ s.buf, x.1 < s.bufCap
  cursor_inv : ∀ c ∈ s.cursors, c.Inv s.bufCap
  result_inv : ∀ c ∈ s.cursors, ∀ r, c.res = some r → s.ResultInv c r

/-! ### A pass -/

/-- The records of `k` successive `NEXT` commands of one cursor instance that all respond `OK`, and
the state after them; none if one responds otherwise (R187). -/
def State.nexts (id : Nat) : Nat → State → Option (List Record × State)
  | 0, s => some ([], s)
  | k + 1, s =>
    match s.request (nextRequest id) with
    | .next t =>
      match t.response with
      | some ⟨.ok, .record r⟩ => (State.nexts id k t).map fun p => (r :: p.1, p.2)
      | _ => none
    | _ => none

/-! ### The record of a span in plain arithmetic

The same rules (R120, R128 to R130, R160 to R166) written with division and remainder on the
numbers the bytes stand for, and independent of the decoder. -/

/-- Byte `k` of a span as a number. -/
def spanNat (s : List Byte) (k : Nat) : Nat := (s.getD k 0).toNat

/-- Two consecutive bytes as a little-endian number (R53). -/
def spanPair (s : List Byte) (k : Nat) : Nat := spanNat s k + 256 * spanNat s (k + 1)

/-- One or two bytes as a number, by the word flag. -/
def spanValue (s : List Byte) (w k : Nat) : Nat := if w = 0 then spanNat s k else spanPair s k

/-- The displacement (R128). -/
def spanDisp (s : List Byte) (mod : Nat) : Disp :=
  if mod = 1 then .disp8 (s.getD 2 0)
  else if mod = 2 then .disp16 (BitVec.ofNat 16 (spanPair s 2))
  else .noDisp

/-- The r/m operand (R160); `direct` says whether the variant has the direct-address form. -/
def spanRm (s : List Byte) (direct : Bool) (w mod rm : Nat) : Operand :=
  if mod = 3 then .reg (BitVec.ofNat 4 (8 * w + rm))
  else if mod = 0 ∧ rm = 6 then
    if direct then .memDirect (BitVec.ofNat 16 (spanPair s 2)) (BitVec.ofNat 1 w)
    else .unresolved (BitVec.ofNat 1 w)
  else .memEA (BitVec.ofNat 3 rm) (spanDisp s mod) (BitVec.ofNat 1 w)

/-- The immediate operand's width (R81). -/
def spanWidth (w : Nat) : ImmWidth := if w = 0 then .w8 else .w16

/-- The decoding of a span (R161 to R165), by the number of its byte 0 (R84). -/
def spanDecoded (s : List Byte) : Option (Variant × Decoded) :=
  let b0 := spanNat s 0
  let w := b0 % 2
  let mod := spanNat s 1 / 64
  let reg := spanNat s 1 / 8 % 8
  let rm := spanNat s 1 % 8
  let bit (n : Nat) : Bit := BitVec.ofNat 1 n
  let code (n : Nat) : RegCode := BitVec.ofNat 3 n
  if b0 / 4 = 0x22 then
    let d := b0 / 2 % 2
    let regop := Operand.reg (BitVec.ofNat 4 (8 * w + reg))
    let rmop := spanRm s true w mod rm
    some (.rmr,
      { w := bit w, d := some (bit d), mod := some (BitVec.ofNat 2 mod), reg := some (code reg),
        rm := some (code rm), disp := spanDisp s mod,
        addr := if mod = 0 ∧ rm = 6 then some (BitVec.ofNat 16 (spanPair s 2)) else none,
        data := none,
        dst := if d = 1 then regop else rmop,
        src := if d = 1 then rmop else regop })
  else if b0 / 2 = 0x50 ∨ b0 / 2 = 0x51 then
    let a : Word16 := BitVec.ofNat 16 (spanValue s w 1)
    let acc := Operand.reg (BitVec.ofNat 4 (8 * w))
    some (if b0 / 2 = 0x50 then .mta else .atm,
      { w := bit w, d := none, mod := none, reg := none, rm := none, disp := .noDisp,
        addr := some a, data := none,
        dst := if b0 / 2 = 0x50 then acc else .memDirect a (bit w),
        src := if b0 / 2 = 0x50 then .memDirect a (bit w) else acc })
  else if b0 / 2 = 0x63 then
    let k := if mod = 1 then 3 else if mod = 2 then 4 else 2
    let v : Word16 := BitVec.ofNat 16 (spanValue s w k)
    some (.irm,
      { w := bit w, d := none, mod := some (BitVec.ofNat 2 mod), reg := some (code reg),
        rm := some (code rm), disp := spanDisp s mod, addr := none,
        data := some (v, spanWidth w),
        dst := spanRm s false w mod rm, src := .imm v (spanWidth w) })
  else if b0 / 16 = 0xB then
    let w := b0 / 8 % 2
    let v : Word16 := BitVec.ofNat 16 (spanValue s w 1)
    some (.ir,
      { w := bit w, d := none, mod := none, reg := some (code (b0 % 8)), rm := none,
        disp := .noDisp, addr := none, data := some (v, spanWidth w),
        dst := .reg (BitVec.ofNat 4 (8 * w + b0 % 8)), src := .imm v (spanWidth w) })
  else none

end Sys2Proof.Machine
end

