-- ==== Sys2Proof/Certificates/Slice0/Obligations.lean ====
section
/-! DEFINITION. The statements for the provers. Each docstring names the rule of spec/ it
formalises. -/

open Sys2Proof Sys2Proof.Machine

/-! ### Encoding -/

/-- Decoding the bytes of a well-formed instruction, whatever follows them, gives it back
(30_encoding.md R71 to R75, R83). -/
def Obligations.DecodeOfEncode : Prop :=
  ∀ (i : Instr) (rest : List Byte), i.wellFormed = true → decode (encode i ++ rest) = .ok (i, rest)

/-- Whatever decodes is the encoding of a well-formed instruction, followed by the bytes left over:
no bit of a recognized encoding is dropped (R71 to R75, R87). -/
def Obligations.DecodedBytesAreTheEncoding : Prop :=
  ∀ (bytes : List Byte) (i : Instr) (rest : List Byte), decode bytes = .ok (i, rest) →
    i.wellFormed = true ∧ bytes = encode i ++ rest

/-- Words of the spec's worked examples and vectors, one or more per variant (95_test_vectors.md
L1-1 to L1-4, V-RMR-6, V-IRM-5, V-IRM-7, V-MTA-2, V-ATM-1). -/
def Obligations.SpecWordsDecode : Prop :=
  decode [0x89, 0xD9] = .ok (.rmr 0 1 3 3 1 .noDisp none, []) ∧
  decode [0x8B, 0x41, 0xDB] = .ok (.rmr 1 1 1 0 1 (.disp8 0xDB) none, []) ∧
  decode [0x8B, 0x1E, 0x34, 0x12] = .ok (.rmr 1 1 0 3 6 .noDisp (some 0x1234), []) ∧
  decode [0xB8, 0x01, 0x00] = .ok (.ir 1 0 1, []) ∧
  decode [0xA1, 0x00, 0x01] = .ok (.mta 1 256, []) ∧
  decode [0xA0, 0x10] = .ok (.mta 0 16, []) ∧
  decode [0xA3, 0x00, 0x80] = .ok (.atm 1 0x8000, []) ∧
  decode [0xC7, 0x42, 0x02, 0x00, 0x01] = .ok (.irm 1 1 0 2 (.disp8 2) 256, []) ∧
  decode [0xC6, 0x06, 0x05] = .ok (.irm 0 0 0 6 .noDisp 5, [])

/-- The opcode map of byte 0: the variant, the fields byte 0 fixes for it whatever byte 1 is (R84),
and the bytes that are unrecognized (R85). -/
def Obligations.OpcodeMapOfByteZero : Prop :=
  ∀ b0 : Byte,
    (matchPrefix b0 = some .rmr ↔ 0x88 ≤ b0.toNat ∧ b0.toNat ≤ 0x8B) ∧
    (matchPrefix b0 = some .mta ↔ 0xA0 ≤ b0.toNat ∧ b0.toNat ≤ 0xA1) ∧
    (matchPrefix b0 = some .atm ↔ 0xA2 ≤ b0.toNat ∧ b0.toNat ≤ 0xA3) ∧
    (matchPrefix b0 = some .ir ↔ 0xB0 ≤ b0.toNat ∧ b0.toNat ≤ 0xBF) ∧
    (matchPrefix b0 = some .irm ↔ 0xC6 ≤ b0.toNat ∧ b0.toNat ≤ 0xC7) ∧
    (matchPrefix b0 = none ↔
      b0.toNat ≤ 0x87 ∨ (0x8C ≤ b0.toNat ∧ b0.toNat ≤ 0x9F) ∨
      (0xA4 ≤ b0.toNat ∧ b0.toNat ≤ 0xAF) ∨ (0xC0 ≤ b0.toNat ∧ b0.toNat ≤ 0xC5) ∨
      0xC8 ≤ b0.toNat) ∧
    ∀ b1 : Byte,
      (matchPrefix b0 = some .rmr → ∃ (d w : Bit) (mod : ModField) (reg rm : RegCode),
        extractFields .rmr b0 b1 = .rmr d w mod reg rm ∧
        b0.toNat = 0x88 + 2 * d.toNat + w.toNat) ∧
      (matchPrefix b0 = some .mta → ∃ w : Bit,
        extractFields .mta b0 b1 = .mta w ∧ b0.toNat = 0xA0 + w.toNat) ∧
      (matchPrefix b0 = some .atm → ∃ w : Bit,
        extractFields .atm b0 b1 = .atm w ∧ b0.toNat = 0xA2 + w.toNat) ∧
      (matchPrefix b0 = some .ir → ∃ (w : Bit) (reg : RegCode),
        extractFields .ir b0 b1 = .ir w reg ∧
        b0.toNat = (if w = 0 then 0xB0 else 0xB8) + reg.toNat) ∧
      (matchPrefix b0 = some .irm → ∃ (w : Bit) (mod : ModField) (reg rm : RegCode),
        extractFields .irm b0 b1 = .irm w mod reg rm ∧ b0.toNat = 0xC6 + w.toNat)

/-- Every order of the five entries of the prefix table gives the same classification of every
byte (R142). -/
def Obligations.PrefixOrderDoesNotMatter : Prop :=
  ∀ l : List PrefixEntry, l.Perm prefixTable → ∀ b0 : Byte,
    (l.find? fun e => e.hits b0).map PrefixEntry.variant = matchPrefix b0

/-- The length of every recognized pair of bytes (R146, R147), in arithmetic on the bytes. -/
def Obligations.LengthOfEveryVariant : Prop :=
  ∀ (b0 b1 : Byte) (v : Variant) (len : Nat), classify b0 b1 = some (v, len) →
    matchPrefix b0 = some v ∧ 2 ≤ len ∧ len ≤ 6 ∧
    (v = .rmr → len =
      if b1.toNat / 64 = 0 then (if b1.toNat % 8 = 6 then 4 else 2)
      else if b1.toNat / 64 = 1 then 3 else if b1.toNat / 64 = 2 then 4 else 2) ∧
    (v = .irm → len = 3 + b0.toNat % 2 +
      if b1.toNat / 64 = 1 then 1 else if b1.toNat / 64 = 2 then 2 else 0) ∧
    (v = .ir → len = 2 + b0.toNat / 8 % 2) ∧
    (v = .mta ∨ v = .atm → len = 2 + b0.toNat % 2)

/-- Every byte index the extraction reads lies inside the span: bytes after it do not matter
(R131). -/
def Obligations.ExtractionReadsOnlyTheSpan : Prop :=
  ∀ (b0 b1 : Byte) (tail more : List Byte) (v : Variant),
    classify b0 b1 = some (v, (b0 :: b1 :: tail).length) →
    decodeSpan v (b0 :: b1 :: tail ++ more) = decodeSpan v (b0 :: b1 :: tail)

/-- In IRM bits 5:3 of byte 1 select nothing: spans that differ only there are recognized with the
same length and decode to the same operands, displacement and data (R87, R126). -/
def Obligations.IrmRegBitsSelectNothing : Prop :=
  ∀ (b0 b1 b1' : Byte) (tail : List Byte), matchPrefix b0 = some .irm →
    b1.toNat / 64 = b1'.toNat / 64 → b1.toNat % 8 = b1'.toNat % 8 →
    classify b0 b1 = classify b0 b1' ∧
    (decodeSpan .irm (b0 :: b1 :: tail)).wellFormed =
      (decodeSpan .irm (b0 :: b1' :: tail)).wellFormed ∧
    { decodedOf (decodeSpan .irm (b0 :: b1 :: tail)) with reg := none } =
      { decodedOf (decodeSpan .irm (b0 :: b1' :: tail)) with reg := none }

/-! ### Tables and operand forms -/

/-- The register name table (R100). -/
def Obligations.RegisterNameTable : Prop :=
  (List.map (fun n => regName 1 (BitVec.ofNat 3 n)) [0, 1, 2, 3, 4, 5, 6, 7] =
    [.ax, .cx, .dx, .bx, .sp, .bp, .si, .di]) ∧
  (List.map (fun n => regName 0 (BitVec.ofNat 3 n)) [0, 1, 2, 3, 4, 5, 6, 7] =
    [.al, .cl, .dl, .bl, .ah, .ch, .dh, .bh]) ∧
  (∀ (w : Bit) (code : RegCode),
    (regId w code).toNat = 8 * w.toNat + code.toNat ∧ regIdName (regId w code) = regName w code)

/-- The effective-address table (R103). -/
def Obligations.EffectiveAddressTable : Prop :=
  List.map (fun n => eaResolve (BitVec.ofNat 3 n)) [0, 1, 2, 3, 4, 5, 6, 7] =
    [⟨some .bx, some .si⟩, ⟨some .bx, some .di⟩, ⟨some .bp, some .si⟩, ⟨some .bp, some .di⟩,
      ⟨none, some .si⟩, ⟨none, some .di⟩, ⟨some .bp, none⟩, ⟨some .bx, none⟩]

/-- The displacements' integers and their 16-bit form: both kinds are signed, and the 16-bit form
read as two's complement is the integer (R78). -/
def Obligations.DisplacementsAreSigned : Prop :=
  (∀ v : Byte, dispValue (.disp8 v) = v.toInt) ∧
  (∀ v : Word16, dispValue (.disp16 v) = v.toInt) ∧
  (∀ d : Disp, (dispWord d).toInt = dispValue d) ∧
  dispValue (.disp8 0xDB) = -37

/-- The packed operand form: kind in 2:0, bits 6:3, and the width bit 7 (R80). -/
def Obligations.PackedOperandForm : Prop :=
  (∀ r : RegId, (Operand.reg r).pack.toNat = 1 + 8 * r.toNat + 128 * (r.toNat / 8)) ∧
  (∀ (e : EaCode) (disp : Disp) (w : Bit),
    (Operand.memEA e disp w).pack.toNat = 2 + 8 * e.toNat + 128 * w.toNat) ∧
  (∀ (a : Word16) (w : Bit), (Operand.memDirect a w).pack.toNat = 3 + 128 * w.toNat) ∧
  (∀ v : Word16, (Operand.imm v .w8).pack.toNat = 4 ∧ (Operand.imm v .w16).pack.toNat = 132) ∧
  (∀ w : Bit, (Operand.unresolved w).pack.toNat = 5 + 128 * w.toNat)

/-! ### The five variants -/

/-- RMR (R161): on an accepted span, exec answers the next state in which the record of `decodeRMR`
stands in `RES` and `POS` has advanced by the length. The clauses after the equation are the rule's
pseudocode line by line, on the record's own bytes. -/
def Obligations.RmrDeliversItsRecord : Prop :=
  ∀ (d w : Bit) (mod : ModField) (reg rm : RegCode) (disp : Disp) (addr : Option Word16)
    (s : State) (c : Cursor),
    (Instr.rmr d w mod reg rm disp addr).wellFormed = true →
    s.Accepts c (2 + dispLen mod rm true) →
    ∃ (r : Record) (rmop : Operand),
      exec (.rmr d w mod reg rm disp addr) s = .next
        { s with
          cursors := s.cursors.set s.sel
            { c with res := some r, pos := c.pos + (2 + dispLen mod rm true) }
          response := some ⟨.ok, .record r⟩ } ∧
      r.variant = .rmr ∧ r.start = c.pos ∧ r.len = 2 + dispLen mod rm true ∧
      r.bytes = encode (.rmr d w mod reg rm disp addr) ∧ r.bytes.length = r.len ∧
      (spanByte r.bytes 0).toNat / 4 = 0x22 ∧
      extractFields .rmr (spanByte r.bytes 0) (spanByte r.bytes 1) = .rmr d w mod reg rm ∧
      extractDisp .rmr mod rm r.bytes = (disp, addr) ∧
      (mod = 3 → rmop = .reg (w ++ rm)) ∧
      (mod = 0 ∧ rm = 6 → rmop = .memDirect (word (spanByte r.bytes 2) (spanByte r.bytes 3)) w) ∧
      (mod ≠ 3 ∧ ¬ (mod = 0 ∧ rm = 6) → rmop = .memEA rm disp w) ∧
      r.w = w ∧ r.d = some d ∧ r.mod = some mod ∧ r.reg = some reg ∧ r.rm = some rm ∧
      r.disp = disp ∧ r.addr = addr ∧ r.data = none ∧
      (d = 1 → r.dst = .reg (w ++ reg) ∧ r.src = rmop) ∧
      (d = 0 → r.dst = rmop ∧ r.src = .reg (w ++ reg))

/-- IRM (R162), the `mod = 00, rm = 110` form included (R86). -/
def Obligations.IrmDeliversItsRecord : Prop :=
  ∀ (w : Bit) (mod : ModField) (reg rm : RegCode) (disp : Disp) (data : Word16)
    (s : State) (c : Cursor),
    (Instr.irm w mod reg rm disp data).wellFormed = true →
    s.Accepts c (3 + w.toNat + dispLen mod rm false) →
    ∃ r : Record,
      exec (.irm w mod reg rm disp data) s = .next
        { s with
          cursors := s.cursors.set s.sel
            { c with res := some r, pos := c.pos + (3 + w.toNat + dispLen mod rm false) }
          response := some ⟨.ok, .record r⟩ } ∧
      r.variant = .irm ∧ r.start = c.pos ∧ r.len = 3 + w.toNat + dispLen mod rm false ∧
      r.bytes = encode (.irm w mod reg rm disp data) ∧ r.bytes.length = r.len ∧
      (spanByte r.bytes 0).toNat / 2 = 0x63 ∧
      extractFields .irm (spanByte r.bytes 0) (spanByte r.bytes 1) = .irm w mod reg rm ∧
      extractDisp .irm mod rm r.bytes = (disp, none) ∧
      extractData w (2 + dispLen mod rm false) r.bytes = data ∧
      r.w = w ∧ r.d = none ∧ r.mod = some mod ∧ r.reg = some reg ∧ r.rm = some rm ∧
      r.disp = disp ∧ r.addr = none ∧
      r.data = some (data, if w = 0 then .w8 else .w16) ∧
      r.src = .imm data (if w = 0 then .w8 else .w16) ∧
      (mod = 3 → r.dst = .reg (w ++ rm)) ∧
      (mod = 0 ∧ rm = 6 → r.dst = .unresolved w) ∧
      (mod ≠ 3 ∧ ¬ (mod = 0 ∧ rm = 6) → r.dst = .memEA rm disp w)

/-- IR (R163). -/
def Obligations.IrDeliversItsRecord : Prop :=
  ∀ (w : Bit) (reg : RegCode) (data : Word16) (s : State) (c : Cursor),
    (Instr.ir w reg data).wellFormed = true → s.Accepts c (2 + w.toNat) →
    ∃ r : Record,
      exec (.ir w reg data) s = .next
        { s with
          cursors := s.cursors.set s.sel { c with res := some r, pos := c.pos + (2 + w.toNat) }
          response := some ⟨.ok, .record r⟩ } ∧
      r.variant = .ir ∧ r.start = c.pos ∧ r.len = 2 + w.toNat ∧
      r.bytes = encode (.ir w reg data) ∧ r.bytes.length = r.len ∧
      (spanByte r.bytes 0).toNat / 16 = 0xB ∧
      extractFields .ir (spanByte r.bytes 0) (spanByte r.bytes 1) = .ir w reg ∧
      extractData w 1 r.bytes = data ∧
      r.w = w ∧ r.d = none ∧ r.mod = none ∧ r.reg = some reg ∧ r.rm = none ∧
      r.disp = .noDisp ∧ r.addr = none ∧
      r.data = some (data, if w = 0 then .w8 else .w16) ∧
      r.dst = .reg (w ++ reg) ∧ r.src = .imm data (if w = 0 then .w8 else .w16)

/-- MTA (R164): the address is the two bytes for `w = 1` and the zero-extended byte for `w = 0`
(R82). -/
def Obligations.MtaDeliversItsRecord : Prop :=
  ∀ (w : Bit) (addr : Word16) (s : State) (c : Cursor),
    (Instr.mta w addr).wellFormed = true → s.Accepts c (2 + w.toNat) →
    ∃ r : Record,
      exec (.mta w addr) s = .next
        { s with
          cursors := s.cursors.set s.sel { c with res := some r, pos := c.pos + (2 + w.toNat) }
          response := some ⟨.ok, .record r⟩ } ∧
      r.variant = .mta ∧ r.start = c.pos ∧ r.len = 2 + w.toNat ∧
      r.bytes = encode (.mta w addr) ∧ r.bytes.length = r.len ∧
      (spanByte r.bytes 0).toNat / 2 = 0x50 ∧
      extractFields .mta (spanByte r.bytes 0) (spanByte r.bytes 1) = .mta w ∧
      addr = (if w = 1 then word (spanByte r.bytes 1) (spanByte r.bytes 2)
        else zext16 (spanByte r.bytes 1)) ∧
      r.w = w ∧ r.d = none ∧ r.mod = none ∧ r.reg = none ∧ r.rm = none ∧
      r.disp = .noDisp ∧ r.addr = some addr ∧ r.data = none ∧
      r.dst = .reg (w ++ 0#3) ∧ r.src = .memDirect addr w

/-- ATM (R165). -/
def Obligations.AtmDeliversItsRecord : Prop :=
  ∀ (w : Bit) (addr : Word16) (s : State) (c : Cursor),
    (Instr.atm w addr).wellFormed = true → s.Accepts c (2 + w.toNat) →
    ∃ r : Record,
      exec (.atm w addr) s = .next
        { s with
          cursors := s.cursors.set s.sel { c with res := some r, pos := c.pos + (2 + w.toNat) }
          response := some ⟨.ok, .record r⟩ } ∧
      r.variant = .atm ∧ r.start = c.pos ∧ r.len = 2 + w.toNat ∧
      r.bytes = encode (.atm w addr) ∧ r.bytes.length = r.len ∧
      (spanByte r.bytes 0).toNat / 2 = 0x51 ∧
      extractFields .atm (spanByte r.bytes 0) (spanByte r.bytes 1) = .atm w ∧
      addr = (if w = 1 then word (spanByte r.bytes 1) (spanByte r.bytes 2)
        else zext16 (spanByte r.bytes 1)) ∧
      r.w = w ∧ r.d = none ∧ r.mod = none ∧ r.reg = none ∧ r.rm = none ∧
      r.disp = .noDisp ∧ r.addr = some addr ∧ r.data = none ∧
      r.dst = .memDirect addr w ∧ r.src = .reg (w ++ 0#3)

/-- The frame of every instruction (R167, R226, R37, R51): no parameter, no byte of `BUF`, no move
still to come, no other cursor instance, and of the named cursor instance nothing but `RES`,
`RES_VALID` and `POS`. -/
def Obligations.InstructionFrame : Prop :=
  ∀ (i : Instr) (s t : State), exec i s = .next t →
    t.bufCap = s.bufCap ∧ t.buf = s.buf ∧ t.sel = s.sel ∧ t.pending = s.pending ∧
    (∀ a : Nat, t.memRead a = s.memRead a) ∧
    t.cursors.length = s.cursors.length ∧
    (∀ j : Nat, j ≠ s.sel → t.cursors[j]? = s.cursors[j]?) ∧
    (∀ c : Cursor, s.cursors[s.sel]? = some c →
      ∃ c' : Cursor, t.cursors[s.sel]? = some c' ∧ c'.base = c.base ∧ c'.endOff = c.endOff ∧
        c'.phase = c.phase ∧ c'.err = c.err ∧ c'.errPos = c.errPos ∧ c'.errByte = c.errByte)

/-- With RMR and `mod = 11` both operands are registers, and the rendered line holds no bracket
(R168). -/
def Obligations.RegisterDirectNamesOnlyRegisters : Prop :=
  ∀ (d w : Bit) (reg rm : RegCode) (disp : Disp) (addr : Option Word16) (n : Nat) (signed : Bool),
    (∃ a b : RegId, (decodedOf (.rmr d w 3 reg rm disp addr)).dst = .reg a ∧
      (decodedOf (.rmr d w 3 reg rm disp addr)).src = .reg b) ∧
    ∃ text : String,
      (recordOf (.rmr d w 3 reg rm disp addr) n
        (decodedOf (.rmr d w 3 reg rm disp addr))).render signed = .ok text ∧
      '[' ∉ text.toList ∧ ']' ∉ text.toList

/-- The renderer answers text for every record but one with an `Unresolved` operand, for which it
reports an error (R206). -/
def Obligations.RendererFailsOnUnresolved : Prop :=
  ∀ (signed : Bool) (r : Record),
    ((∃ e, r.render signed = .error e) ↔
      (∃ w, r.dst = .unresolved w) ∨ (∃ w, r.src = .unresolved w))

/-! ### A step, and the host commands -/

/-- A step runs the decoded instruction (R185): when a `NEXT` names a cursor instance whose pass is
active, and the bytes from `POS` to `END` decode to an instruction, the step is exec of it on the
state with that cursor instance selected. -/
def Obligations.StepRunsTheDecodedInstruction : Prop :=
  ∀ (s : State) (r : Request) (c : Cursor) (later : List HostEvent) (bytes rest : List Byte)
    (i : Instr),
    s.pending = .command r :: later → r.command = some .next →
    s.cursors[r.cursor]? = some c → c.phase = .active →
    s.slice c.pos (c.endOff - c.pos) = some bytes → decode bytes = .ok (i, rest) →
    step s = exec i { s with pending := later, sel := r.cursor }

/-- The model's own convention (log 2, log 1): with no move of the host pending a step changes
nothing; with one it is that move, run on the state that still holds the later ones; and of each kind
of move, whatever it does, the later ones are what is pending after it. A command has then selected
the cursor instance it names (log 3), and a write to the map has done nothing else (log 19). -/
def Obligations.StepTakesOneHostMove : Prop :=
  (∀ s : State, s.pending = [] → step s = .next s) ∧
  (∀ (s : State) (e : HostEvent) (later : List HostEvent), s.pending = e :: later →
    step s = runEvent e { s with pending := later }) ∧
  (∀ (s t : State) (r : Request) (later : List HostEvent), s.pending = .command r :: later →
    step s = .next t → t.pending = later ∧ t.sel = r.cursor) ∧
  (∀ (s t : State) (a : Nat) (bytes : List Byte) (later : List HostEvent),
    s.pending = .load a bytes :: later → step s = .next t →
    t.pending = later ∧ t.cursors = s.cursors ∧ t.response = s.response) ∧
  (∀ (s : State) (later : List HostEvent), s.pending = .powerOn :: later →
    ∃ t : State, step s = .next t ∧ t.pending = later ∧ t.cursors.length = s.cursors.length) ∧
  (∀ (s : State) (id index : Nat) (v : Word32) (later : List HostEvent),
    s.pending = .writeMap id index v :: later → step s = .next { s with pending := later })

/-- The record of a successful `NEXT` is the decoding of the bytes at `POS`, computed by division
and remainder on the bytes independently of the decoder (R120, R128 to R130, R160 to R166, R185),
and `POS`, `RES` and the response are as R185 says. What the rules of IR, MTA and ATM return as
`disp` is `NoDisp`, where the record's field of R32 is `None` (log 17). -/
def Obligations.NextRecordIsTheByteArithmetic : Prop :=
  ∀ (s t : State) (r : Request) (rec : Record), r.command = some .next →
    s.request r = .next t → t.response = some ⟨.ok, .record rec⟩ →
    ∃ c : Cursor, s.cursors[r.cursor]? = some c ∧ c.phase = .active ∧
      c.pos + rec.len ≤ c.endOff ∧
      rec.start = c.pos ∧ s.slice c.pos rec.len = some rec.bytes ∧
      classify (spanByte rec.bytes 0) (spanByte rec.bytes 1) = some (rec.variant, rec.len) ∧
      spanDecoded rec.bytes = some (rec.variant, rec.toDecoded) ∧
      t.cursors[r.cursor]? = some { c with res := some rec, pos := c.pos + rec.len }

/-- A consumer that extracts the fields again from the record's bytes gets the fields of the record
(R132). -/
def Obligations.ReparsedFieldsAgree : Prop :=
  ∀ (s t : State) (r : Request) (rec : Record), s.request r = .next t →
    t.response = some ⟨.ok, .record rec⟩ →
    match extractFields rec.variant (spanByte rec.bytes 0) (spanByte rec.bytes 1) with
    | .rmr d w mod reg rm =>
      rec.d = some d ∧ rec.w = w ∧ rec.mod = some mod ∧ rec.reg = some reg ∧ rec.rm = some rm
    | .irm w mod reg rm =>
      rec.d = none ∧ rec.w = w ∧ rec.mod = some mod ∧ rec.reg = some reg ∧ rec.rm = some rm
    | .ir w reg =>
      rec.d = none ∧ rec.w = w ∧ rec.mod = none ∧ rec.reg = some reg ∧ rec.rm = none
    | .mta w => rec.d = none ∧ rec.w = w ∧ rec.mod = none ∧ rec.reg = none ∧ rec.rm = none
    | .atm w => rec.d = none ∧ rec.w = w ∧ rec.mod = none ∧ rec.reg = none ∧ rec.rm = none

/-- The command and response codes (R181): the command codes 0 to 4 name the five commands with their
operands, and 5 to 7 none; the response codes are 0 to 5. -/
def Obligations.CommandCodes : Prop :=
  (∀ id a b : Nat,
    (Request.mk id 0 a b).command = some .reset ∧
    (Request.mk id 1 a b).command = some (.start a b) ∧
    (Request.mk id 2 a b).command = some .hasNext ∧
    (Request.mk id 3 a b).command = some .next ∧
    (Request.mk id 4 a b).command = some (.read a) ∧
    (Request.mk id 5 a b).command = none ∧ (Request.mk id 6 a b).command = none ∧
    (Request.mk id 7 a b).command = none) ∧
  List.map respCode
    [.ok, .endOfStream, .unrecognizedOpcode, .truncatedInstruction, .notActive, .badRange] =
      [0, 1, 2, 3, 4, 5]

/-- The state after power-on reset (R250), for the parameters the model takes (log 5): every
cursor instance has every register at its reset value, `RES` is no value, the computed `HAS_NEXT` is
0, and a read of a register of `RES` faults. -/
def Obligations.ResetState : Prop :=
  (∀ c ∈ State.reset.cursors, c.phase = .idle ∧ c.err = .none ∧ c.errPos = 0 ∧ c.errByte = 0 ∧
    c.pos = 0 ∧ c.base = 0 ∧ c.endOff = 0 ∧ c.res = none ∧ c.hasNext = false ∧
    c.statusWord = 0 ∧ ∀ index : Nat, 5 ≤ index → index ≤ 13 → c.readReg index = none) ∧
  State.reset.cursors ≠ []

/-- `RESET` puts the cursor instance it names, and no other, in its reset state and responds `OK`;
power-on reset puts every one there; neither changes `BUF` (R182, R250). In the reset state `HAS_NEXT`
is 0 and no register of `RES` is a value. -/
def Obligations.ResetCommandAndPowerOn : Prop :=
  (∀ (s : State) (r : Request) (c : Cursor), r.command = some .reset →
    s.cursors[r.cursor]? = some c →
    s.request r = .next
      { s with
        sel := r.cursor
        cursors := s.cursors.set r.cursor ⟨0, 0, 0, .idle, .none, 0, 0, none⟩
        response := some ⟨.ok, .none⟩ }) ∧
  (∀ s : State, ∃ t : State, s.issue .powerOn = .next t ∧
    t.cursors = List.replicate s.cursors.length ⟨0, 0, 0, .idle, .none, 0, 0, none⟩ ∧
    t.buf = s.buf ∧ t.bufCap = s.bufCap ∧ ∀ a : Nat, t.memRead a = s.memRead a) ∧
  (∀ c : Cursor, c = ⟨0, 0, 0, .idle, .none, 0, 0, none⟩ → c.hasNext = false ∧
    ∀ index : Nat, 5 ≤ index → index ≤ 13 → c.readReg index = none)

/-- `START(base, len)` (R183), in every phase: in range it begins a pass, and out of range it
responds `BAD_RANGE` and changes no register. -/
def Obligations.StartBeginsAPass : Prop :=
  ∀ (s : State) (r : Request) (c : Cursor) (base len : Nat), r.command = some (.start base len) →
    s.cursors[r.cursor]? = some c →
    s.request r = .next
      (if base + len > s.bufCap then
        { s with sel := r.cursor, response := some ⟨.badRange, .none⟩ }
      else
        { s with
          sel := r.cursor
          cursors := s.cursors.set r.cursor ⟨base, base, base + len, .active, .none, 0, 0, none⟩
          response := some ⟨.ok, .none⟩ })

/-- `HAS_NEXT` (R184): one bit, which bit 5 of `STATUS` reads as well, and no state change. -/
def Obligations.HasNextAnswersOneBit : Prop :=
  ∀ (s : State) (r : Request) (c : Cursor), r.command = some .hasNext →
    s.cursors[r.cursor]? = some c →
    s.request r = .next
      { s with
        sel := r.cursor
        response := some ⟨.ok, .bit (decide (c.phase = .active ∧ c.pos + 1 < c.endOff))⟩ } ∧
    ∃ v : Word32, c.readReg 0 = some v ∧
      v.getLsbD 5 = decide (c.phase = .active ∧ c.pos + 1 < c.endOff)

/-- `READ(index)` (R186): the register of the map, no state change; 0 for an index with no register;
and a fault for a register the map marks unspecified while `RES_VALID = 0`. -/
def Obligations.ReadReturnsTheRegister : Prop :=
  ∀ (s : State) (r : Request) (c : Cursor) (index : Nat), r.command = some (.read index) →
    s.cursors[r.cursor]? = some c →
    (5 ≤ index ∧ index ≤ 13 ∧ c.res = none → s.request r = .fault .resNotValid) ∧
    (14 < index → s.request r = .next
      { s with sel := r.cursor, response := some ⟨.ok, .word 0⟩ }) ∧
    (index ≤ 14 → ¬ (5 ≤ index ∧ index ≤ 13 ∧ c.res = none) →
      ∃ v : Word32, c.readReg index = some v ∧
        s.request r = .next { s with sel := r.cursor, response := some ⟨.ok, .word v⟩ })

/-- The status registers of the map, indices 0 to 4 and 14 (R33), as numbers. The positions are given
modulo 2^32, the width of a response word (log 10). -/
def Obligations.StatusRegistersOfTheMap : Prop :=
  ∀ c : Cursor,
    (∃ v : Word32, c.readReg 0 = some v ∧ v.toNat =
      (phaseCode c.phase).toNat + 4 * (errCode c.err).toNat +
        16 * (if c.res = none then 0 else 1) +
        32 * (if c.phase = .active ∧ c.pos + 1 < c.endOff then 1 else 0)) ∧
    (∃ v : Word32, c.readReg 1 = some v ∧ v.toNat = c.pos % 2 ^ 32) ∧
    (∃ v : Word32, c.readReg 2 = some v ∧ v.toNat = c.endOff % 2 ^ 32) ∧
    (∃ v : Word32, c.readReg 3 = some v ∧ v.toNat = c.errPos % 2 ^ 32) ∧
    (∃ v : Word32, c.readReg 4 = some v ∧ v.toNat = c.errByte.toNat) ∧
    (∃ v : Word32, c.readReg 14 = some v ∧ v.toNat = c.base % 2 ^ 32) ∧
    [phaseCode .idle, phaseCode .active, phaseCode .ended, phaseCode .faulted] = [0, 1, 2, 3] ∧
    [errCode .none, errCode .unrecognizedOpcode, errCode .truncatedInstruction] = [0, 1, 2]

/-- The registers of `RES`, indices 5 to 13 (R33): each field at its place, the valid bits, 0 in
the value bits of a field that is not valid, and the codes of the variants (R70). `RES_DISP` reads
the field `disp` of R32, and 0 where that is `None` (log 17). -/
def Obligations.ResultRegistersOfTheMap : Prop :=
  ∀ (c : Cursor) (r : Record), c.res = some r →
    (∃ v : Word32, c.readReg 5 = some v ∧
      v.extractLsb' 0 3 = variantCode r.variant ∧ v.extractLsb' 3 1 = 0 ∧
      v.extractLsb' 4 3 = BitVec.ofNat 3 r.len ∧ v.extractLsb' 7 1 = 0 ∧
      v.extractLsb' 8 1 = r.w ∧
      v.extractLsb' 9 1 = r.d.getD 0 ∧ v.extractLsb' 10 1 = BitVec.ofBool r.d.isSome ∧
      v.extractLsb' 11 1 = BitVec.ofBool r.mod.isSome ∧
      v.extractLsb' 12 2 = r.mod.getD 0 ∧ v.extractLsb' 14 3 = r.reg.getD 0 ∧
      v.extractLsb' 17 1 = BitVec.ofBool r.reg.isSome ∧
      v.extractLsb' 18 3 = r.rm.getD 0 ∧ v.extractLsb' 21 11 = 0) ∧
    c.readReg 6 = some (BitVec.ofNat 32 r.start) ∧
    (∃ v : Word32, c.readReg 7 = some v ∧
      ∀ k : Nat, k < 4 → v.extractLsb' (8 * k) 8 = r.bytes.getD k 0) ∧
    (∃ v : Word32, c.readReg 8 = some v ∧ v.extractLsb' 16 16 = 0 ∧
      v.extractLsb' 0 8 = r.bytes.getD 4 0 ∧ v.extractLsb' 8 8 = r.bytes.getD 5 0) ∧
    (∃ v : Word32, c.readReg 9 = some v ∧ v.extractLsb' 2 14 = 0 ∧
      (v.extractLsb' 16 16).toInt = (match r.disp? with | none => 0 | some d => dispValue d) ∧
      v.extractLsb' 0 2 = match r.disp? with
        | none => 0
        | some .noDisp => 0
        | some (.disp8 _) => 1
        | some (.disp16 _) => 2) ∧
    (∃ v : Word32, c.readReg 10 = some v ∧ v.extractLsb' 0 16 = r.addr.getD 0 ∧
      v.extractLsb' 16 1 = BitVec.ofBool r.addr.isSome ∧ v.extractLsb' 17 15 = 0) ∧
    (∃ v : Word32, c.readReg 11 = some v ∧ v.extractLsb' 18 14 = 0 ∧
      v.extractLsb' 17 1 = BitVec.ofBool r.data.isSome ∧
      (r.data = none → v.extractLsb' 0 17 = 0) ∧
      ∀ (x : Word16) (width : ImmWidth), r.data = some (x, width) →
        v.extractLsb' 0 16 = x ∧ v.extractLsb' 16 1 = if width = .w16 then 1 else 0) ∧
    c.readReg 12 = some (r.dst.pack.setWidth 32) ∧
    c.readReg 13 = some (r.src.pack.setWidth 32) ∧
    List.map variantCode [.rmr, .irm, .ir, .mta, .atm] = [0, 1, 2, 3, 4]

/-- `NEXT` outside `ACTIVE` (R185, R224): `NOT_ACTIVE` in `IDLE` with no state change,
`END_OF_STREAM` in `ENDED`, the stored error in `FAULTED`; no register but `RES_VALID` changes. The
code in `FAULTED` is the value of `ERR` plus 1 (R185); that this holds also where no error is
recorded, which no run reaches, is the model's reading (log 15). -/
def Obligations.NextOutsideActive : Prop :=
  ∀ (s : State) (r : Request) (c : Cursor), r.command = some .next →
    s.cursors[r.cursor]? = some c →
    (c.phase = .idle → s.request r = .next
      { s with sel := r.cursor, response := some ⟨.notActive, .none⟩ }) ∧
    (c.phase = .ended → s.request r = .next
      { s with
        sel := r.cursor
        cursors := s.cursors.set r.cursor { c with res := none }
        response := some ⟨.endOfStream, .none⟩ }) ∧
    (c.phase = .faulted → ∃ code : RespCode,
      (respCode code).toNat = (errCode c.err).toNat + 1 ∧
      s.request r = .next
        { s with
          sel := r.cursor
          cursors := s.cursors.set r.cursor { c with res := none }
          response := some ⟨code, .none⟩ })

/-- `EndOfStream` (R223): in phase `ACTIVE` with fewer than two bytes left. -/
def Obligations.NextAtTheEnd : Prop :=
  ∀ (s : State) (r : Request) (c : Cursor), r.command = some .next →
    s.cursors[r.cursor]? = some c → c.phase = .active → c.pos + 1 ≥ c.endOff →
    s.request r = .next
      { s with
        sel := r.cursor
        cursors := s.cursors.set r.cursor { c with phase := .ended, res := none }
        response := some ⟨.endOfStream, .none⟩ }

/-- `UnrecognizedOpcode` (R221): its cause, what it records, and that only `NEXT` raises it. In
`FAULTED` a `NEXT` responds with the stored error again (R185). -/
def Obligations.NextAtAnUnrecognizedOpcode : Prop :=
  (∀ (s : State) (r : Request) (c : Cursor) (b0 : Byte), r.command = some .next →
    s.cursors[r.cursor]? = some c → c.phase = .active → c.pos + 1 < c.endOff →
    c.endOff ≤ s.bufCap → s.memRead c.pos = some b0 →
    (∀ e ∈ prefixTable, b0 &&& e.mask ≠ e.value) →
    s.request r = .next
      { s with
        sel := r.cursor
        cursors := s.cursors.set r.cursor
          { c with phase := .faulted, err := .unrecognizedOpcode, errPos := c.pos, errByte := b0,
                   res := none }
        response := some ⟨.unrecognizedOpcode, .none⟩ }) ∧
  (∀ (s t : State) (r : Request) (p : Payload), s.request r = .next t →
    t.response = some ⟨.unrecognizedOpcode, p⟩ → r.command = some .next)

/-- `TruncatedInstruction` (R222): its cause, what it records, and that only `NEXT` raises it. -/
def Obligations.NextAtATruncatedInstruction : Prop :=
  (∀ (s : State) (r : Request) (c : Cursor) (b0 b1 : Byte) (v : Variant) (len : Nat),
    r.command = some .next → s.cursors[r.cursor]? = some c → c.phase = .active →
    c.pos + 1 < c.endOff → s.memRead c.pos = some b0 → s.memRead (c.pos + 1) = some b1 →
    classify b0 b1 = some (v, len) → c.pos + len > c.endOff →
    s.request r = .next
      { s with
        sel := r.cursor
        cursors := s.cursors.set r.cursor
          { c with phase := .faulted, err := .truncatedInstruction, errPos := c.pos, errByte := b0,
                   res := none }
        response := some ⟨.truncatedInstruction, .none⟩ }) ∧
  (∀ (s t : State) (r : Request) (p : Payload), s.request r = .next t →
    t.response = some ⟨.truncatedInstruction, p⟩ → r.command = some .next)

/-- `BAD_RANGE` (R225): its three cases, each with no state change. -/
def Obligations.BadRangeChangesNothing : Prop :=
  ∀ (s : State) (r : Request),
    (s.cursors.length ≤ r.cursor ∨ r.command = none ∨
      ∃ base len : Nat, r.command = some (.start base len) ∧ base + len > s.bufCap) →
    s.request r = .next { s with sel := r.cursor, response := some ⟨.badRange, .none⟩ }

/-- `FAULTED` and `ENDED` are sticky (R228): a request that is neither a `RESET` nor a `START` leaves
every register of the cursor instance it names as it was (`RES_VALID` stays 0, as it is in both phases
by the invariant), with `HAS_NEXT` false; a `NEXT` in `FAULTED` with an error stored, as
there is by the invariant, responds with it; and a `START` in range, which clears `ERR`, or a `RESET`
leaves them. -/
def Obligations.OnlyStartOrResetLeavesAnError : Prop :=
  ∀ (s t : State) (r : Request) (c c' : Cursor), s.cursors[r.cursor]? = some c →
    (c.phase = .faulted ∨ c.phase = .ended) → s.request r = .next t →
    t.cursors[r.cursor]? = some c' →
    ((∀ base len : Nat, r.command ≠ some (.start base len)) → r.command ≠ some .reset →
      c' = { c with res := c'.res } ∧ (c.res = none → c' = c) ∧ c'.hasNext = false) ∧
    (r.command = some .next → c.phase = .faulted → c.err ≠ .none →
      ∃ code : RespCode, t.response = some ⟨code, .none⟩ ∧
        (respCode code).toNat = (errCode c.err).toNat + 1) ∧
    (∀ base len : Nat, r.command = some (.start base len) → base + len ≤ s.bufCap →
      c'.phase = .active ∧ c'.err = .none) ∧
    (r.command = some .reset → c'.phase = .idle ∧ c'.err = .none)

/-- What a command may do to the position and the result (R24, R31, with log 17): apart from `START`
and `RESET`, only a `NEXT` that responds `OK` moves `POS`, forward by the record's length, and only
such a `NEXT` sets `RES`; `BASE` and `END` stay. -/
def Obligations.OnlyASuccessfulNextAdvances : Prop :=
  ∀ (s t : State) (r : Request) (c c' : Cursor), s.cursors[r.cursor]? = some c →
    s.request r = .next t → t.cursors[r.cursor]? = some c' →
    (∀ base len : Nat, r.command ≠ some (.start base len)) → r.command ≠ some .reset →
    c'.base = c.base ∧ c'.endOff = c.endOff ∧
    ((c'.pos = c.pos ∧ (c'.res = c.res ∨ c'.res = none)) ∨
      ∃ rec : Record, r.command = some .next ∧ t.response = some ⟨.ok, .record rec⟩ ∧
        c'.res = some rec ∧ c'.pos = c.pos + rec.len ∧ 2 ≤ rec.len ∧ c'.pos ≤ c.endOff)

/-! ### The whole machine -/

/-- The core only reads `BUF` (R51): no command changes any byte of it, nor the capacity. -/
def Obligations.CommandsOnlyReadTheBuffer : Prop :=
  ∀ (s t : State) (r : Request), s.request r = .next t →
    t.buf = s.buf ∧ t.bufCap = s.bufCap ∧ ∀ a : Nat, t.memRead a = s.memRead a

/-- A command reads and writes only the cursor instance it names (R37, R189): the others, their
number and the host's later moves are unchanged. -/
def Obligations.OtherCursorsAreUntouched : Prop :=
  ∀ (s t : State) (r : Request), s.request r = .next t →
    t.cursors.length = s.cursors.length ∧ t.pending = s.pending ∧
    (∀ j : Nat, j ≠ r.cursor → t.cursors[j]? = s.cursors[j]?) ∧
    ∃ resp : Response, t.response = some resp

/-- Commands of different cursor instances commute (R37, R189): in either order both get the same
responses and the cursor instances end the same. -/
def Obligations.CommandsOfDifferentCursorsCommute : Prop :=
  ∀ (s s₁ s₂ : State) (p q : Request), p.cursor ≠ q.cursor →
    s.request p = .next s₁ → s₁.request q = .next s₂ →
    ∃ u₁ u₂ : State, s.request q = .next u₁ ∧ u₁.request p = .next u₂ ∧
      u₂.cursors = s₂.cursors ∧ u₂.buf = s₂.buf ∧ u₂.bufCap = s₂.bufCap ∧
      u₁.response = s₂.response ∧ u₂.response = s₁.response

/-- A command of a cursor instance depends only on the bytes of its own pass (R57): on a buffer that
agrees on `[BASE, END)` it does the same. -/
def Obligations.CommandsReadOnlyTheirPass : Prop :=
  ∀ (s t : State) (m : Memory) (r : Request) (c : Cursor), s.Inv →
    s.cursors[r.cursor]? = some c →
    (∀ a : Nat, c.base ≤ a → a < c.endOff → { s with buf := m }.memRead a = s.memRead a) →
    s.request r = .next t →
    { s with buf := m }.request r = .next { t with buf := m }

/-- The invariant holds after reset. -/
def Obligations.ResetMeetsTheInvariant : Prop := State.reset.Inv

/-- Every step keeps the invariant: the bounds `BASE <= POS <= END <= BUF_CAP` (R26), `ERR` against
`PHASE` (R29), the canonical form of the buffer, and a valid result that is the decoding of the
bytes `BUF` holds just before `POS` (R31, R166). -/
def Obligations.EveryStepKeepsTheInvariant : Prop :=
  ∀ s t : State, s.Inv → step s = .next t → t.Inv

/-- In every state that meets the invariant the positions fit `POS_W` bits (R23, R27, R29, R30), and
`POS_W` is the least width that can hold the capacity (R6). -/
def Obligations.PositionsFitTheirWidth : Prop :=
  ∀ s : State, s.Inv →
    (∀ c ∈ s.cursors, c.pos < 2 ^ Config.posW s.bufCap ∧ c.base < 2 ^ Config.posW s.bufCap ∧
      c.endOff < 2 ^ Config.posW s.bufCap ∧ c.errPos < 2 ^ Config.posW s.bufCap) ∧
    s.bufCap < 2 ^ Config.posW s.bufCap ∧
    ∀ n : Nat, s.bufCap < 2 ^ n → Config.posW s.bufCap ≤ n

/-- Every command completes (R180, R57): in a state that meets the invariant, each request answers a
next state, but for a `READ` of a register that is no value. -/
def Obligations.EveryCommandCompletes : Prop :=
  ∀ (s : State) (r : Request), s.Inv →
    (∀ (c : Cursor) (index : Nat), s.cursors[r.cursor]? = some c →
      r.command = some (.read index) → c.res = none → ¬ (5 ≤ index ∧ index ≤ 13)) →
    ∃ t : State, s.request r = .next t

/-- The records of a pass are contiguous and cover the buffer from the first `POS` to the last
(R187): after `k` successful `NEXT` commands `POS` has advanced by the sum of their lengths, their
spans joined are the bytes of `BUF` between, and each starts where the ones before it end. -/
def Obligations.RecordsOfAPassCoverTheBuffer : Prop :=
  ∀ (s t : State) (id k : Nat) (c : Cursor) (records : List Record),
    s.cursors[id]? = some c → s.nexts id k = some (records, t) →
    ∃ c' : Cursor, t.cursors[id]? = some c' ∧ records.length = k ∧
      c'.pos = c.pos + (records.map Record.len).sum ∧
      (k ≠ 0 → c'.pos ≤ c.endOff) ∧ c'.endOff = c.endOff ∧ c'.base = c.base ∧
      s.slice c.pos (c'.pos - c.pos) = some (records.flatMap Record.bytes) ∧
      ∀ (j : Nat) (r : Record), records[j]? = some r →
        r.start = c.pos + ((records.take j).map Record.len).sum

/-- A pass ends (R188): from an active pass at most half as many `NEXT` commands as bytes are left
respond `OK`, and the next one responds otherwise and leaves `ACTIVE`. -/
def Obligations.EveryPassEnds : Prop :=
  ∀ (s : State) (id : Nat) (c : Cursor), s.Inv → s.cursors[id]? = some c → c.phase = .active →
    ∃ (k : Nat) (records : List Record) (t u : State) (c' : Cursor) (code : RespCode),
      2 * k ≤ c.endOff - c.pos ∧ s.nexts id k = some (records, t) ∧
      t.request (nextRequest id) = .next u ∧ u.response = some ⟨code, .none⟩ ∧
      (code = .endOfStream ∨ code = .unrecognizedOpcode ∨ code = .truncatedInstruction) ∧
      u.cursors[id]? = some c' ∧ c'.phase ≠ .active

/-! ### The host's other moves -/

/-- A host load (R62, R253, log 8, log 14): bytes outside the buffer fault; bytes of an active pass
are refused; and else the bytes stand where they were loaded and every other byte is unchanged. -/
def Obligations.HostLoadWritesBetweenPasses : Prop :=
  ∀ (s : State) (a : Nat) (bytes : List Byte),
    (a + bytes.length > s.bufCap → s.issue (.load a bytes) = .fault .bufOutOfRange) ∧
    (a + bytes.length ≤ s.bufCap →
      (∃ c ∈ s.cursors, c.phase = .active ∧
        ∃ x : Nat, a ≤ x ∧ x < a + bytes.length ∧ c.base ≤ x ∧ x < c.endOff) →
      s.issue (.load a bytes) = .refused .hostWroteActivePass) ∧
    (a + bytes.length ≤ s.bufCap →
      (∀ c ∈ s.cursors, c.phase = .active →
        ∀ x : Nat, a ≤ x → x < a + bytes.length → ¬ (c.base ≤ x ∧ x < c.endOff)) →
      ∃ t : State, s.issue (.load a bytes) = .next t ∧ t.cursors = s.cursors ∧
        t.bufCap = s.bufCap ∧ t.pending = s.pending ∧ t.response = s.response ∧
        (∀ k : Nat, k < bytes.length → t.memRead (a + k) = bytes[k]?) ∧
        ∀ x : Nat, (x < a ∨ a + bytes.length ≤ x) → t.memRead x = s.memRead x)

/-- Writes to the read-only register map are ignored (R33), and have no response (log 19). -/
def Obligations.MapWritesAreIgnored : Prop :=
  ∀ (s : State) (id index : Nat) (v : Word32), s.issue (.writeMap id index v) = .next s

/-- An instruction placed for the next step is the one the next step runs (log 13): for every table
word the decoder reads and every machine with a cursor instance. -/
def Obligations.PlacedInstructionRuns : Prop :=
  ∀ (s : State) (nbits w : Nat) (i : Instr), s.cursors ≠ [] →
    decodeTableWord nbits w = some i →
    ∃ u : State, step (s.withFetchWord nbits w) = exec i u ∧ u.pending = s.pending ∧ u.sel = 0 ∧
      ∃ c : Cursor, u.cursor? = some c ∧ c.phase = .active ∧
        c.pos + (encode i).length ≤ c.endOff ∧ u.slice c.pos (encode i).length = some (encode i)

/-- A power-on reset changes nothing but the cursor instances: that it leaves the last response, the
selected cursor id and the host's later moves is the model's choice (log 19). -/
def Obligations.PowerOnLeavesTheHostInterface : Prop :=
  ∀ s : State, s.issue .powerOn = .next
    { s with cursors := List.replicate s.cursors.length ⟨0, 0, 0, .idle, .none, 0, 0, none⟩ }

/-- Which fields of a delivered record carry a value, by its variant (R32): `d`, `mod`, `reg`, `rm`,
`disp`, `addr` and `data` exactly where the table says, and `None` elsewhere. That `disp` is `None`
for IR, MTA and ATM although their rules return `NoDisp` is the model's reading of R32 beside R163
to R165 (log 17). -/
def Obligations.RecordFieldsByVariant : Prop :=
  ∀ (s t : State) (r : Request) (rec : Record), s.request r = .next t →
    t.response = some ⟨.ok, .record rec⟩ →
    (rec.d ≠ none ↔ rec.variant = .rmr) ∧
    (rec.mod ≠ none ↔ rec.variant = .rmr ∨ rec.variant = .irm) ∧
    (rec.rm ≠ none ↔ rec.variant = .rmr ∨ rec.variant = .irm) ∧
    (rec.reg ≠ none ↔ rec.variant = .rmr ∨ rec.variant = .irm ∨ rec.variant = .ir) ∧
    (rec.disp? ≠ none ↔ rec.variant = .rmr ∨ rec.variant = .irm) ∧
    (∀ d : Disp, rec.disp? = some d →
      d = if rec.mod = some 1 then .disp8 (spanByte rec.bytes 2)
        else if rec.mod = some 2 then .disp16 (word (spanByte rec.bytes 2) (spanByte rec.bytes 3))
        else .noDisp) ∧
    (rec.addr ≠ none ↔ rec.variant = .mta ∨ rec.variant = .atm ∨
      (rec.variant = .rmr ∧ rec.mod = some 0 ∧ rec.rm = some 6)) ∧
    (rec.data ≠ none ↔ rec.variant = .irm ∨ rec.variant = .ir) ∧
    2 ≤ rec.len ∧ rec.len ≤ 6 ∧ rec.bytes.length = rec.len
end

