-- ==== Sys2Proof/Laws/Codec.lean ====
section
/-! SUPPORT. Laws of the byte-level functions: the bytes of a word put together again, the lengths of
the encoder's parts, and what the prefix table says of byte 0. -/

namespace Sys2Proof

theorem bit_cases (b : Bit) : b = 0 ∨ b = 1 := by
  revert b
  decide

/-- The two bytes of a word give the word back (R53). -/
theorem word_lo_hi (v : Word16) : word (loByte v) (hiByte v) = v := by
  apply BitVec.eq_of_getLsbD_eq
  intro i hi
  simp only [word, loByte, hiByte, BitVec.getLsbD_or, BitVec.getLsbD_setWidth,
    BitVec.getLsbD_shiftLeft, BitVec.getLsbD_extractLsb', hi, decide_true, Bool.true_and]
  by_cases h : i < 8
  · simp [h]
  · have h2 : i - 8 < 8 := by omega
    have h3 : 8 + (i - 8) = i := by omega
    have h4 : i - 8 < 16 := by omega
    simp [h, h2, h3, h4]

theorem loByte_word (lo hi : Byte) : loByte (word lo hi) = lo := by
  apply BitVec.eq_of_getLsbD_eq
  intro i h
  have h2 : i < 16 := by omega
  simp [word, loByte, h, h2]

theorem hiByte_word (lo hi : Byte) : hiByte (word lo hi) = hi := by
  apply BitVec.eq_of_getLsbD_eq
  intro i h
  have h2 : 8 + i < 16 := by omega
  simp [word, hiByte, h, h2]

theorem zext16_toNat_lt (b : Byte) : (zext16 b).toNat < 256 := by
  have h := b.isLt
  simp only [zext16, BitVec.toNat_setWidth]
  omega

theorem loByte_zext16 (b : Byte) : loByte (zext16 b) = b := by
  apply BitVec.eq_of_getLsbD_eq
  intro i h
  have h2 : i < 16 := by omega
  simp [loByte, zext16, h, h2]

/-- A value below 256 is its low byte, zero-extended. -/
theorem zext16_loByte (v : Word16) (h : v.toNat < 256) : zext16 (loByte v) = v := by
  apply BitVec.eq_of_toNat_eq
  simp only [zext16, loByte, BitVec.toNat_setWidth, BitVec.extractLsb'_toNat, Nat.shiftRight_zero]
  omega

@[simp] theorem wordBytes_length (v : Word16) : (wordBytes v).length = 2 := rfl

theorem valueBytes_length (w : Bit) (v : Word16) : (valueBytes w v).length = 1 + w.toNat := by
  rcases bit_cases w with rfl | rfl <;> rfl

/-- The four values of the `mod` field (R76). -/
theorem mod_cases (m : ModField) : m = 0 ∨ m = 1 ∨ m = 2 ∨ m = 3 := by
  revert m
  decide

/-! ### The displacement functions at each value of `mod` -/

theorem dispLen_mod0 (rm : RegCode) (ds : Bool) :
    dispLen 0 rm ds = if (ds && rm == 6) = true then 2 else 0 := rfl

theorem dispLen_mod1 (rm : RegCode) (ds : Bool) : dispLen 1 rm ds = 1 := rfl

theorem dispLen_mod2 (rm : RegCode) (ds : Bool) : dispLen 2 rm ds = 2 := rfl

theorem dispLen_mod3 (rm : RegCode) (ds : Bool) : dispLen 3 rm ds = 0 := rfl

theorem extractDisp_mod0 (v : Variant) (rm : RegCode) (s : List Byte) :
    extractDisp v 0 rm s =
      if (v == .rmr && rm == 6) = true then
        (.noDisp, some (word (spanByte s 2) (spanByte s 3)))
      else (.noDisp, none) := rfl

theorem extractDisp_mod1 (v : Variant) (rm : RegCode) (s : List Byte) :
    extractDisp v 1 rm s = (.disp8 (spanByte s 2), none) := rfl

theorem extractDisp_mod2 (v : Variant) (rm : RegCode) (s : List Byte) :
    extractDisp v 2 rm s = (.disp16 (word (spanByte s 2) (spanByte s 3)), none) := rfl

theorem extractDisp_mod3 (v : Variant) (rm : RegCode) (s : List Byte) :
    extractDisp v 3 rm s = (.noDisp, none) := rfl

/-- The bytes of a well-formed displacement and direct address are as many as `dispLen` says
(R77). -/
theorem rmr_variable_length {mod : ModField} {rm : RegCode} {disp : Disp} {addr : Option Word16}
    (hd : dispFits mod disp = true) (ha : directFits mod rm addr = true) :
    (dispBytes disp ++ directBytes addr).length = dispLen mod rm true := by
  rcases mod_cases mod with rfl | rfl | rfl | rfl <;> cases disp <;> cases addr <;>
    simp_all [dispFits, directFits, dispLen, dispBytes, directBytes]

theorem irm_disp_length {mod : ModField} {rm : RegCode} {disp : Disp}
    (hd : dispFits mod disp = true) : (dispBytes disp).length = dispLen mod rm false := by
  rcases mod_cases mod with rfl | rfl | rfl | rfl <;> cases disp <;>
    simp_all [dispFits, dispLen, dispBytes]

/-- Every displacement length is at most 2 (R77). -/
theorem dispLen_le (mod : ModField) (rm : RegCode) (ds : Bool) : dispLen mod rm ds ≤ 2 := by
  rcases mod_cases mod with rfl | rfl | rfl | rfl <;> simp [dispLen]
  split <;> omega

theorem bit_toNat_le (w : Bit) : w.toNat ≤ 1 := by
  rcases bit_cases w with rfl | rfl <;> decide

/-- Every length the resolver gives is 2 to 6 (R147). -/
theorem instrLen_bounds (f : Fields) : 2 ≤ instrLen f ∧ instrLen f ≤ 6 := by
  cases f with
  | rmr d w mod reg rm => have := dispLen_le mod rm true; simp only [instrLen]; omega
  | irm w mod reg rm =>
    have := dispLen_le mod rm false
    have := bit_toNat_le w
    simp only [instrLen]
    omega
  | ir w reg => have := bit_toNat_le w; simp only [instrLen]; omega
  | mta w => have := bit_toNat_le w; simp only [instrLen]; omega
  | atm w => have := bit_toNat_le w; simp only [instrLen]; omega

theorem classify_len_bounds {b0 b1 : Byte} {v : Variant} {len : Nat}
    (h : classify b0 b1 = some (v, len)) : 2 ≤ len ∧ len ≤ 6 := by
  simp only [classify, Option.map_eq_some_iff, Prod.mk.injEq] at h
  obtain ⟨v', -, rfl, rfl⟩ := h
  exact instrLen_bounds _

end Sys2Proof
end

