-- ==== Sys2Proof/Laws/State.lean ====
section
/-! SUPPORT. What each update of State and of Cursor leaves in each field: one lemma per field per
update, so that no later proof unfolds a record update. -/

namespace Sys2Proof.Machine

/-! ### `State.setCursor` -/

@[simp] theorem State.setCursor_bufCap (s : State) (c : Cursor) :
    (s.setCursor c).bufCap = s.bufCap := rfl

@[simp] theorem State.setCursor_buf (s : State) (c : Cursor) :
    (s.setCursor c).buf = s.buf := rfl

@[simp] theorem State.setCursor_cursors (s : State) (c : Cursor) :
    (s.setCursor c).cursors = s.cursors.set s.sel c := rfl

@[simp] theorem State.setCursor_sel (s : State) (c : Cursor) :
    (s.setCursor c).sel = s.sel := rfl

@[simp] theorem State.setCursor_pending (s : State) (c : Cursor) :
    (s.setCursor c).pending = s.pending := rfl

@[simp] theorem State.setCursor_response (s : State) (c : Cursor) :
    (s.setCursor c).response = s.response := rfl

/-! ### `State.select` -/

@[simp] theorem State.select_bufCap (s : State) (id : Nat) :
    (s.select id).bufCap = s.bufCap := rfl

@[simp] theorem State.select_buf (s : State) (id : Nat) :
    (s.select id).buf = s.buf := rfl

@[simp] theorem State.select_cursors (s : State) (id : Nat) :
    (s.select id).cursors = s.cursors := rfl

@[simp] theorem State.select_sel (s : State) (id : Nat) :
    (s.select id).sel = id := rfl

@[simp] theorem State.select_pending (s : State) (id : Nat) :
    (s.select id).pending = s.pending := rfl

@[simp] theorem State.select_response (s : State) (id : Nat) :
    (s.select id).response = s.response := rfl

/-! ### `State.respond` -/

@[simp] theorem State.respond_bufCap (s : State) (k : RespCode) (p : Payload) :
    (s.respond k p).bufCap = s.bufCap := rfl

@[simp] theorem State.respond_buf (s : State) (k : RespCode) (p : Payload) :
    (s.respond k p).buf = s.buf := rfl

@[simp] theorem State.respond_cursors (s : State) (k : RespCode) (p : Payload) :
    (s.respond k p).cursors = s.cursors := rfl

@[simp] theorem State.respond_sel (s : State) (k : RespCode) (p : Payload) :
    (s.respond k p).sel = s.sel := rfl

@[simp] theorem State.respond_pending (s : State) (k : RespCode) (p : Payload) :
    (s.respond k p).pending = s.pending := rfl

@[simp] theorem State.respond_response (s : State) (k : RespCode) (p : Payload) :
    (s.respond k p).response = some ⟨k, p⟩ := rfl

/-! ### `State.badRange` -/

@[simp] theorem State.badRange_bufCap (s : State) :
    (s.badRange).bufCap = s.bufCap := rfl

@[simp] theorem State.badRange_buf (s : State) :
    (s.badRange).buf = s.buf := rfl

@[simp] theorem State.badRange_cursors (s : State) :
    (s.badRange).cursors = s.cursors := rfl

@[simp] theorem State.badRange_sel (s : State) :
    (s.badRange).sel = s.sel := rfl

@[simp] theorem State.badRange_pending (s : State) :
    (s.badRange).pending = s.pending := rfl

@[simp] theorem State.badRange_response (s : State) :
    (s.badRange).response = some ⟨.badRange, .none⟩ := rfl

/-! ### `Cursor.enterError` -/

@[simp] theorem Cursor.enterError_pos (c : Cursor) (e : ErrCode) (b0 : Byte) :
    (c.enterError e b0).pos = c.pos := rfl

@[simp] theorem Cursor.enterError_base (c : Cursor) (e : ErrCode) (b0 : Byte) :
    (c.enterError e b0).base = c.base := rfl

@[simp] theorem Cursor.enterError_endOff (c : Cursor) (e : ErrCode) (b0 : Byte) :
    (c.enterError e b0).endOff = c.endOff := rfl

@[simp] theorem Cursor.enterError_phase (c : Cursor) (e : ErrCode) (b0 : Byte) :
    (c.enterError e b0).phase = .faulted := rfl

@[simp] theorem Cursor.enterError_err (c : Cursor) (e : ErrCode) (b0 : Byte) :
    (c.enterError e b0).err = e := rfl

@[simp] theorem Cursor.enterError_errPos (c : Cursor) (e : ErrCode) (b0 : Byte) :
    (c.enterError e b0).errPos = c.pos := rfl

@[simp] theorem Cursor.enterError_errByte (c : Cursor) (e : ErrCode) (b0 : Byte) :
    (c.enterError e b0).errByte = b0 := rfl

@[simp] theorem Cursor.enterError_res (c : Cursor) (e : ErrCode) (b0 : Byte) :
    (c.enterError e b0).res = none := rfl

/-! ### `Cursor.dropResult` -/

@[simp] theorem Cursor.dropResult_pos (c : Cursor) :
    (c.dropResult).pos = c.pos := rfl

@[simp] theorem Cursor.dropResult_base (c : Cursor) :
    (c.dropResult).base = c.base := rfl

@[simp] theorem Cursor.dropResult_endOff (c : Cursor) :
    (c.dropResult).endOff = c.endOff := rfl

@[simp] theorem Cursor.dropResult_phase (c : Cursor) :
    (c.dropResult).phase = c.phase := rfl

@[simp] theorem Cursor.dropResult_err (c : Cursor) :
    (c.dropResult).err = c.err := rfl

@[simp] theorem Cursor.dropResult_errPos (c : Cursor) :
    (c.dropResult).errPos = c.errPos := rfl

@[simp] theorem Cursor.dropResult_errByte (c : Cursor) :
    (c.dropResult).errByte = c.errByte := rfl

@[simp] theorem Cursor.dropResult_res (c : Cursor) :
    (c.dropResult).res = none := rfl

/-! ### `Cursor.endPass` -/

@[simp] theorem Cursor.endPass_pos (c : Cursor) :
    (c.endPass).pos = c.pos := rfl

@[simp] theorem Cursor.endPass_base (c : Cursor) :
    (c.endPass).base = c.base := rfl

@[simp] theorem Cursor.endPass_endOff (c : Cursor) :
    (c.endPass).endOff = c.endOff := rfl

@[simp] theorem Cursor.endPass_phase (c : Cursor) :
    (c.endPass).phase = .ended := rfl

@[simp] theorem Cursor.endPass_err (c : Cursor) :
    (c.endPass).err = c.err := rfl

@[simp] theorem Cursor.endPass_errPos (c : Cursor) :
    (c.endPass).errPos = c.errPos := rfl

@[simp] theorem Cursor.endPass_errByte (c : Cursor) :
    (c.endPass).errByte = c.errByte := rfl

@[simp] theorem Cursor.endPass_res (c : Cursor) :
    (c.endPass).res = none := rfl

/-! ### `Cursor.accept` -/

@[simp] theorem Cursor.accept_pos (c : Cursor) (r : Record) :
    (c.accept r).pos = c.pos + r.len := rfl

@[simp] theorem Cursor.accept_base (c : Cursor) (r : Record) :
    (c.accept r).base = c.base := rfl

@[simp] theorem Cursor.accept_endOff (c : Cursor) (r : Record) :
    (c.accept r).endOff = c.endOff := rfl

@[simp] theorem Cursor.accept_phase (c : Cursor) (r : Record) :
    (c.accept r).phase = c.phase := rfl

@[simp] theorem Cursor.accept_err (c : Cursor) (r : Record) :
    (c.accept r).err = c.err := rfl

@[simp] theorem Cursor.accept_errPos (c : Cursor) (r : Record) :
    (c.accept r).errPos = c.errPos := rfl

@[simp] theorem Cursor.accept_errByte (c : Cursor) (r : Record) :
    (c.accept r).errByte = c.errByte := rfl

@[simp] theorem Cursor.accept_res (c : Cursor) (r : Record) :
    (c.accept r).res = some r := rfl

/-! ### `Cursor.beginPass` -/

@[simp] theorem Cursor.beginPass_pos (base len : Nat) :
    (Cursor.beginPass base len).pos = base := rfl

@[simp] theorem Cursor.beginPass_base (base len : Nat) :
    (Cursor.beginPass base len).base = base := rfl

@[simp] theorem Cursor.beginPass_endOff (base len : Nat) :
    (Cursor.beginPass base len).endOff = base + len := rfl

@[simp] theorem Cursor.beginPass_phase (base len : Nat) :
    (Cursor.beginPass base len).phase = .active := rfl

@[simp] theorem Cursor.beginPass_err (base len : Nat) :
    (Cursor.beginPass base len).err = .none := rfl

@[simp] theorem Cursor.beginPass_errPos (base len : Nat) :
    (Cursor.beginPass base len).errPos = 0 := rfl

@[simp] theorem Cursor.beginPass_errByte (base len : Nat) :
    (Cursor.beginPass base len).errByte = 0 := rfl

@[simp] theorem Cursor.beginPass_res (base len : Nat) :
    (Cursor.beginPass base len).res = none := rfl

/-! ### `Cursor.reset` -/

@[simp] theorem Cursor.reset_pos :
    (Cursor.reset).pos = 0 := rfl

@[simp] theorem Cursor.reset_base :
    (Cursor.reset).base = 0 := rfl

@[simp] theorem Cursor.reset_endOff :
    (Cursor.reset).endOff = 0 := rfl

@[simp] theorem Cursor.reset_phase :
    (Cursor.reset).phase = .idle := rfl

@[simp] theorem Cursor.reset_err :
    (Cursor.reset).err = .none := rfl

@[simp] theorem Cursor.reset_errPos :
    (Cursor.reset).errPos = 0 := rfl

@[simp] theorem Cursor.reset_errByte :
    (Cursor.reset).errByte = 0 := rfl

@[simp] theorem Cursor.reset_res :
    (Cursor.reset).res = none := rfl

end Sys2Proof.Machine
end

