-- ==== Sys2Proof/Laws/Memory.lean ====
section
/-! SUPPORT. The laws of the byte buffer: a write is read back, leaves every other offset alone, and
keeps the canonical form; what a read depends on. -/

namespace Sys2Proof.Machine

/-! ### Reading after a write -/

theorem Memory.lookup_insert_same (m : Memory) (a : Nat) (b : Byte) :
    (m.insert a b).lookup a = some b := by
  induction m with
  | nil => simp [Memory.insert, Memory.lookup]
  | cons x rest ih =>
    obtain ⟨k, v⟩ := x
    unfold Memory.insert
    split
    · simp [Memory.lookup]
    · split
      · simp [Memory.lookup]
      · have hk : k ≠ a := fun h => by simp_all
        simp [Memory.lookup, hk, ih]

theorem Memory.lookup_insert_other (m : Memory) (a a' : Nat) (b : Byte) (h : a' ≠ a) :
    (m.insert a b).lookup a' = m.lookup a' := by
  induction m with
  | nil => simp [Memory.insert, Memory.lookup, h.symm]
  | cons x rest ih =>
    obtain ⟨k, v⟩ := x
    unfold Memory.insert
    split
    · simp [Memory.lookup, h.symm]
    · split
      · rename_i hk
        subst hk
        simp [Memory.lookup, h.symm]
      · simp [Memory.lookup, ih]

theorem Memory.lookup_insertAll_before (bs : List Byte) (m : Memory) (a a' : Nat) (h : a' < a) :
    (m.insertAll a bs).lookup a' = m.lookup a' := by
  induction bs generalizing m a with
  | nil => rfl
  | cons b bs ih =>
    rw [Memory.insertAll, ih _ _ (by omega), Memory.lookup_insert_other _ _ _ _ (by omega)]

theorem Memory.lookup_insertAll_after (bs : List Byte) (m : Memory) (a a' : Nat)
    (h : a + bs.length ≤ a') : (m.insertAll a bs).lookup a' = m.lookup a' := by
  induction bs generalizing m a with
  | nil => rfl
  | cons b bs ih =>
    simp only [List.length_cons] at h
    rw [Memory.insertAll, ih _ _ (by omega), Memory.lookup_insert_other _ _ _ _ (by omega)]

theorem Memory.lookup_insertAll_inside (bs : List Byte) (m : Memory) (a k : Nat)
    (h : k < bs.length) : (m.insertAll a bs).lookup (a + k) = some bs[k] := by
  induction bs generalizing m a k with
  | nil => simp at h
  | cons b bs ih =>
    cases k with
    | zero =>
      rw [Memory.insertAll, Memory.lookup_insertAll_before _ _ _ _ (by omega)]
      exact Memory.lookup_insert_same m a b
    | succ k =>
      have hk : k < bs.length := by simpa using h
      have e : a + (k + 1) = (a + 1) + k := by omega
      rw [Memory.insertAll, e, ih _ _ _ hk]
      rfl

/-! ### Canonical form -/

theorem Memory.mem_insert {m : Memory} {a : Nat} {b : Byte} {x : Host.Cell}
    (h : x ∈ m.insert a b) : x = (a, b) ∨ x ∈ m := by
  induction m with
  | nil => simpa [Memory.insert] using h
  | cons y rest ih =>
    obtain ⟨k, v⟩ := y
    unfold Memory.insert at h
    split at h
    · simpa using h
    · split at h
      · rcases List.mem_cons.1 h with h | h
        · exact .inl h
        · exact .inr (List.mem_cons_of_mem _ h)
      · rcases List.mem_cons.1 h with h | h
        · exact .inr (h ▸ List.mem_cons_self)
        · exact (ih h).imp_right (List.mem_cons_of_mem _)

theorem Memory.insert_wf (m : Memory) (a : Nat) (b : Byte) (h : m.wf) : (m.insert a b).wf := by
  induction m with
  | nil => simp [Memory.insert, Memory.wf]
  | cons y rest ih =>
    obtain ⟨k, v⟩ := y
    obtain ⟨hk, hr⟩ := List.pairwise_cons.1 h
    unfold Memory.insert
    split
    · rename_i hlt
      refine List.pairwise_cons.2 ⟨fun x hx => ?_, h⟩
      rcases List.mem_cons.1 hx with hx | hx
      · simpa [hx] using hlt
      · exact Nat.lt_trans hlt (hk x hx)
    · split
      · rename_i _ heq
        exact List.pairwise_cons.2 ⟨fun x hx => by simpa [heq] using hk x hx, hr⟩
      · refine List.pairwise_cons.2 ⟨fun x hx => ?_, ih hr⟩
        rcases Memory.mem_insert hx with hx | hx
        · simp only [hx]; omega
        · exact hk x hx

theorem Memory.insertAll_wf (bs : List Byte) (m : Memory) (a : Nat) (h : m.wf) :
    (m.insertAll a bs).wf := by
  induction bs generalizing m a with
  | nil => exact h
  | cons b bs ih => exact ih _ _ (Memory.insert_wf _ _ _ h)

theorem Memory.insertAll_in_cap (bs : List Byte) (m : Memory) (a cap : Nat)
    (h : ∀ x ∈ m, x.1 < cap) (hb : a + bs.length ≤ cap) :
    ∀ x ∈ m.insertAll a bs, x.1 < cap := by
  induction bs generalizing m a with
  | nil => exact h
  | cons b bs ih =>
    simp only [List.length_cons] at hb
    refine ih _ _ (fun x hx => ?_) (by omega)
    rcases Memory.mem_insert hx with hx | hx
    · simp only [hx]; omega
    · exact h x hx

theorem State.reset_buf_wf : Memory.wf State.reset.buf := by simp [State.reset, Memory.wf]

/-! ### What a read depends on -/

/-- A read depends only on the capacity and the buffer. -/
theorem State.memRead_congr {s t : State} (hc : t.bufCap = s.bufCap) (hb : t.buf = s.buf)
    (a : Nat) : t.memRead a = s.memRead a := by
  simp only [State.memRead, hc, hb]

theorem State.slice_congr {s t : State} {n a : Nat}
    (h : ∀ k, a ≤ k → k < a + n → t.memRead k = s.memRead k) : t.slice a n = s.slice a n := by
  induction n generalizing a with
  | zero => rfl
  | succ n ih =>
    simp only [State.slice]
    rw [h a (by omega) (by omega), ih fun k h1 h2 => h k (by omega) (by omega)]

theorem State.memRead_isSome {s : State} {a : Nat} : (s.memRead a).isSome ↔ a < s.bufCap := by
  unfold State.memRead
  split <;> simp_all

theorem State.memRead_eq_some {s : State} {a : Nat} (h : a < s.bufCap) :
    ∃ b, s.memRead a = some b :=
  Option.isSome_iff_exists.1 (State.memRead_isSome.2 h)

/-- A slice within the buffer exists and has the length asked for. -/
theorem State.slice_eq_some {s : State} {n a : Nat} (h : a + n ≤ s.bufCap) :
    ∃ bs, s.slice a n = some bs ∧ bs.length = n := by
  induction n generalizing a with
  | zero => exact ⟨[], rfl, rfl⟩
  | succ n ih =>
    obtain ⟨b, hb⟩ := State.memRead_eq_some (s := s) (a := a) (by omega)
    obtain ⟨bs, hbs, hl⟩ := ih (a := a + 1) (by omega)
    exact ⟨b :: bs, by simp [State.slice, hb, hbs], by simp [hl]⟩

theorem State.slice_length {s : State} {n a : Nat} {bs : List Byte} (h : s.slice a n = some bs) :
    bs.length = n := by
  induction n generalizing a bs with
  | zero => simp_all [State.slice]
  | succ n ih =>
    simp only [State.slice] at h
    split at h
    · rename_i b r _ hr
      simp only [Option.some.injEq] at h
      simp [← h, ih hr]
    · cases h

/-- The first byte of a slice, and the slice after it. -/
theorem State.slice_succ {s : State} {n a : Nat} {bs : List Byte}
    (h : s.slice a (n + 1) = some bs) :
    ∃ b rest, bs = b :: rest ∧ s.memRead a = some b ∧ s.slice (a + 1) n = some rest := by
  simp only [State.slice] at h
  split at h
  · rename_i b r hb hr
    exact ⟨b, r, by simpa using h.symm, hb, hr⟩
  · cases h

/-- A slice is the slice of its first part followed by the slice of the rest. -/
theorem State.slice_append {s : State} (m n a : Nat) {xs ys : List Byte}
    (hx : s.slice a m = some xs) (hy : s.slice (a + m) n = some ys) :
    s.slice a (m + n) = some (xs ++ ys) := by
  induction m generalizing a xs with
  | zero =>
    have : xs = [] := by simpa [State.slice] using hx.symm
    subst this
    simpa using hy
  | succ m ih =>
    obtain ⟨b, r, rfl, hb, hr⟩ := State.slice_succ hx
    have e : m + 1 + n = m + n + 1 := by omega
    rw [e, State.slice, hb, ih (a + 1) hr (by rw [← hy]; congr 1; omega)]
    rfl

end Sys2Proof.Machine
end

