-- ==== Sys2Proof/Laws/PerInstr.lean ====
section
/-! SUPPORT. Statements about every instruction as syntax, one lemma per constructor. -/

namespace Sys2Proof

/-- The bytes of a well-formed instruction are as many as the length resolver says (R83, R146). -/
def Laws.EncodeLength.Statement (i : Instr) : Prop :=
  i.wellFormed = true → (encode i).length = instrLen i.fields

theorem Laws.EncodeLength.rmr (d w : Bit) (mod : ModField) (reg rm : RegCode) (disp : Disp)
    (addr : Option Word16) : Laws.EncodeLength.Statement (.rmr d w mod reg rm disp addr) := by
  intro h
  obtain ⟨hd, ha⟩ := Bool.and_eq_true_iff.1 h
  have := rmr_variable_length hd ha
  simp only [encode, List.length_cons, Instr.fields, instrLen, this]
  omega

theorem Laws.EncodeLength.mta (w : Bit) (addr : Word16) :
    Laws.EncodeLength.Statement (.mta w addr) := by
  intro _
  simp only [encode, List.length_cons, Instr.fields, instrLen, valueBytes_length]
  omega

theorem Laws.EncodeLength.atm (w : Bit) (addr : Word16) :
    Laws.EncodeLength.Statement (.atm w addr) := by
  intro _
  simp only [encode, List.length_cons, Instr.fields, instrLen, valueBytes_length]
  omega

theorem Laws.EncodeLength.irm (w : Bit) (mod : ModField) (reg rm : RegCode) (disp : Disp)
    (data : Word16) : Laws.EncodeLength.Statement (.irm w mod reg rm disp data) := by
  intro h
  obtain ⟨hd, -⟩ := Bool.and_eq_true_iff.1 h
  have := irm_disp_length (rm := rm) hd
  simp only [encode, List.length_cons, List.length_append, Instr.fields, instrLen,
    valueBytes_length, this]
  omega

theorem Laws.EncodeLength.ir (w : Bit) (reg : RegCode) (data : Word16) :
    Laws.EncodeLength.Statement (.ir w reg data) := by
  intro _
  simp only [encode, List.length_cons, Instr.fields, instrLen, valueBytes_length]
  omega

end Sys2Proof
end

