-- ==== Sys2Proof/Laws/Exec.lean ====
section
/-! SUPPORT. What the shared operations can do, said once: delivering a record, and running an
instruction, which is to deliver the record of its decoding rule. -/

namespace Sys2Proof.Machine

/-- Delivering a record either is refused, because no cursor instance is named, or writes the named
cursor instance and responds with the record. -/
theorem State.deliver_cases (s : State) (i : Instr) (body : Decoded) :
    (s.cursor? = none ∧ s.deliver i body = s.badRange) ∨
    ∃ c, s.cursor? = some c ∧
      s.deliver i body =
        (s.setCursor (c.accept (recordOf i c.pos body))).respond .ok
          (.record (recordOf i c.pos body)) := by
  unfold State.deliver
  split
  · rename_i h
    exact .inl ⟨h, rfl⟩
  · rename_i c h
    exact .inr ⟨c, h, rfl⟩

theorem State.deliver_eq {s : State} {c : Cursor} (h : s.cursor? = some c) (i : Instr)
    (body : Decoded) :
    s.deliver i body =
      (s.setCursor (c.accept (recordOf i c.pos body))).respond .ok
        (.record (recordOf i c.pos body)) := by
  simp [State.deliver, h]

/-- Every instruction runs by delivering the record of its decoding rule (R161 to R166). -/
theorem exec_eq_deliver (i : Instr) (s : State) : exec i s = .next (s.deliver i (decodedOf i)) := by
  cases i <;> rfl

@[simp] theorem recordOf_variant (i : Instr) (n : Nat) (b : Decoded) :
    (recordOf i n b).variant = i.variant := rfl

@[simp] theorem recordOf_start (i : Instr) (n : Nat) (b : Decoded) :
    (recordOf i n b).start = n := rfl

@[simp] theorem recordOf_len (i : Instr) (n : Nat) (b : Decoded) :
    (recordOf i n b).len = (encode i).length := rfl

@[simp] theorem recordOf_bytes (i : Instr) (n : Nat) (b : Decoded) :
    (recordOf i n b).bytes = encode i := rfl

@[simp] theorem recordOf_toDecoded (i : Instr) (n : Nat) (b : Decoded) :
    (recordOf i n b).toDecoded = b := rfl

/-- For RMR and IRM the record's field `disp` is what the decoding rule returns (R32). -/
theorem Record.disp?_of_hasDisp {r : Record} (h : hasDisp r.variant = true) :
    r.disp? = some r.disp := by
  simp [Record.disp?, h]

/-- For the other variants the record's field `disp` is `None` (R32). -/
theorem Record.disp?_of_not_hasDisp {r : Record} (h : hasDisp r.variant = false) :
    r.disp? = none := by
  simp [Record.disp?, h]

theorem State.setCursor_self {s : State} {c : Cursor} (h : s.cursor? = some c) :
    s.setCursor c = s := by
  obtain ⟨hi, rfl⟩ := List.getElem?_eq_some_iff.1 h
  simp [State.setCursor]

/-- The named cursor instance after it is written. -/
theorem State.setCursor_named {s : State} {c c' : Cursor} (h : s.cursor? = some c) :
    (s.setCursor c').cursors[s.sel]? = some c' := by
  obtain ⟨hi, -⟩ := List.getElem?_eq_some_iff.1 h
  simp [hi]

/-- The other cursor instances after it is written. -/
theorem State.setCursor_other {s : State} {c' : Cursor} {j : Nat} (h : j ≠ s.sel) :
    (s.setCursor c').cursors[j]? = s.cursors[j]? := by
  simp [List.getElem?_set_ne (Ne.symm h)]

end Sys2Proof.Machine
end

