-- ==== Sys2Proof/Laws/Commands.lean ====
section
/-! SUPPORT. What a command can do, said once. `CursorMove` lists every way a command changes the
cursor instance it names, with the condition of each way and the response; `runRequest_cases` says
that a request which answers a next state is refused with `BAD_RANGE` or is one of these moves, and
`runRequest_of_move` the converse. -/

namespace Sys2Proof.Machine

/-- The record a `NEXT` that accepts `span` at `pos` writes. -/
def acceptedRecord (v : Variant) (span : List Byte) (pos : Nat) : Record :=
  recordOf (decodeSpan v span) pos (decodedOf (decodeSpan v span))

/-- The ways a command changes its cursor instance: the command, the cursor after it, the response
code and its payload (R182 to R186). -/
inductive CursorMove (s : State) (c : Cursor) : Command → Cursor → RespCode → Payload → Prop
  | reset : CursorMove s c .reset Cursor.reset .ok .none
  | start (base len : Nat) (h : base + len ≤ s.bufCap) :
      CursorMove s c (.start base len) (Cursor.beginPass base len) .ok .none
  | hasNext : CursorMove s c .hasNext c .ok (.bit c.hasNext)
  | read (index : Nat) (v : Word32) (h : c.readReg index = some v) :
      CursorMove s c (.read index) c .ok (.word v)
  | idle (h : c.phase = .idle) : CursorMove s c .next c .notActive .none
  | ended (h : c.phase = .ended) : CursorMove s c .next c.dropResult .endOfStream .none
  | faulted (code : RespCode) (h : c.phase = .faulted) (hc : code = errResponse c.err) :
      CursorMove s c .next c.dropResult code .none
  | endOfStream (h : c.phase = .active) (hp : ¬ c.pos + 1 < c.endOff) :
      CursorMove s c .next c.endPass .endOfStream .none
  | unrecognized (b0 b1 : Byte) (h : c.phase = .active) (hp : c.pos + 1 < c.endOff)
      (h0 : s.memRead c.pos = some b0) (h1 : s.memRead (c.pos + 1) = some b1)
      (hc : classify b0 b1 = none) :
      CursorMove s c .next (c.enterError .unrecognizedOpcode b0) .unrecognizedOpcode .none
  | truncated (b0 b1 : Byte) (v : Variant) (len : Nat) (h : c.phase = .active)
      (hp : c.pos + 1 < c.endOff)
      (h0 : s.memRead c.pos = some b0) (h1 : s.memRead (c.pos + 1) = some b1)
      (hc : classify b0 b1 = some (v, len)) (hl : c.endOff < c.pos + len) :
      CursorMove s c .next (c.enterError .truncatedInstruction b0) .truncatedInstruction .none
  | accepted (b0 b1 : Byte) (v : Variant) (len : Nat) (span : List Byte)
      (h : c.phase = .active) (hp : c.pos + 1 < c.endOff)
      (h0 : s.memRead c.pos = some b0) (h1 : s.memRead (c.pos + 1) = some b1)
      (hc : classify b0 b1 = some (v, len)) (hl : ¬ c.endOff < c.pos + len)
      (hs : s.slice c.pos len = some span) :
      CursorMove s c .next (c.accept (acceptedRecord v span c.pos)) .ok
        (.record (acceptedRecord v span c.pos))

/-- Why a request is refused with `BAD_RANGE` (R225). -/
def State.Refuses (s : State) (r : Request) : Prop :=
  r.command = none ∨ s.cursors[r.cursor]? = none ∨
    ∃ base len, r.command = some (.start base len) ∧ s.bufCap < base + len

/-- The moves of `NEXT` (R185). -/
theorem cmdNext_cases {s t : State} {c : Cursor} (hs : s.cursor? = some c)
    (h : cmdNext c s = .next t) :
    ∃ c' k p, CursorMove s c .next c' k p ∧ t = (s.setCursor c').respond k p := by
  unfold cmdNext at h
  split at h
  · rename_i hph
    refine ⟨c, _, _, .idle hph, ?_⟩
    rw [State.setCursor_self hs]
    exact (Host.Outcome.next.inj h).symm
  · rename_i hph
    exact ⟨_, _, _, .ended hph, (Host.Outcome.next.inj h).symm⟩
  · rename_i hph
    exact ⟨_, _, _, .faulted _ hph rfl, (Host.Outcome.next.inj h).symm⟩
  · rename_i hph
    unfold nextActive at h
    split at h
    · rename_i hp
      split at h
      · rename_i b0 b1 h0 h1
        unfold nextPeeked at h
        split at h
        · rename_i hc
          exact ⟨_, _, _, .unrecognized b0 b1 hph hp h0 h1 hc, (Host.Outcome.next.inj h).symm⟩
        · rename_i v len hc
          split at h
          · rename_i hl
            exact ⟨_, _, _, .truncated b0 b1 v len hph hp h0 h1 hc hl,
              (Host.Outcome.next.inj h).symm⟩
          · rename_i hl
            split at h
            · rename_i span hspan
              rw [exec_eq_deliver, State.deliver_eq hs] at h
              exact ⟨_, _, _, .accepted b0 b1 v len span hph hp h0 h1 hc hl hspan,
                (Host.Outcome.next.inj h).symm⟩
            · cases h
      · cases h
    · rename_i hp
      exact ⟨_, _, _, .endOfStream hph hp, (Host.Outcome.next.inj h).symm⟩

/-- A request that answers a next state is refused with `BAD_RANGE`, or is a move of the cursor
instance it names. -/
theorem runRequest_cases {r : Request} {s t : State} (h : runRequest r s = .next t) :
    (s.Refuses r ∧ t = (s.select r.cursor).badRange) ∨
    ∃ c k c' code p, s.cursors[r.cursor]? = some c ∧ r.command = some k ∧
      CursorMove s c k c' code p ∧ t = ((s.select r.cursor).setCursor c').respond code p := by
  unfold runRequest at h
  split at h
  · rename_i k c hk hc
    cases k with
    | reset => exact .inr ⟨c, _, _, _, _, hc, hk, .reset, (Host.Outcome.next.inj h).symm⟩
    | start base len =>
      simp only [runCommand, cmdStart] at h
      split at h
      · rename_i hb
        exact .inl ⟨.inr (.inr ⟨base, len, hk, hb⟩), (Host.Outcome.next.inj h).symm⟩
      · rename_i hb
        exact .inr ⟨c, _, _, _, _, hc, hk, .start base len (Nat.not_lt.1 hb),
          (Host.Outcome.next.inj h).symm⟩
    | hasNext =>
      refine .inr ⟨c, _, _, _, _, hc, hk, .hasNext, ?_⟩
      rw [State.setCursor_self hc]
      exact (Host.Outcome.next.inj h).symm
    | next =>
      obtain ⟨c', code, p, hm, ht⟩ := cmdNext_cases hc h
      refine .inr ⟨c, _, c', code, p, hc, hk, ?_, ht⟩
      cases hm with
      | idle h => exact .idle h
      | ended h => exact .ended h
      | faulted code h hc => exact .faulted code h hc
      | endOfStream h hp => exact .endOfStream h hp
      | unrecognized b0 b1 h hp h0 h1 hc => exact .unrecognized b0 b1 h hp h0 h1 hc
      | truncated b0 b1 v len h hp h0 h1 hc hl => exact .truncated b0 b1 v len h hp h0 h1 hc hl
      | accepted b0 b1 v len span h hp h0 h1 hc hl hs =>
        refine .accepted b0 b1 v len span h hp h0 h1 hc hl ?_
        rw [← hs]
        exact (State.slice_congr fun _ _ _ => rfl)
    | read index =>
      simp only [runCommand, cmdRead] at h
      split at h
      · rename_i v hv
        refine .inr ⟨c, _, _, _, _, hc, hk, .read index v hv, ?_⟩
        rw [State.setCursor_self hc]
        exact (Host.Outcome.next.inj h).symm
      · cases h
  · rename_i hn
    refine .inl ⟨?_, (Host.Outcome.next.inj h).symm⟩
    cases hk : r.command with
    | none => exact .inl hk
    | some k =>
      cases hc : s.cursors[r.cursor]? with
      | none => exact .inr (.inl hc)
      | some c => exact (hn k c hk hc).elim

/-- Every move is what its request answers. -/
theorem runRequest_of_move {r : Request} {s : State} {c c' : Cursor} {k : Command}
    {code : RespCode} {p : Payload} (hc : s.cursors[r.cursor]? = some c)
    (hk : r.command = some k) (hm : CursorMove s c k c' code p) :
    runRequest r s = .next (((s.select r.cursor).setCursor c').respond code p) := by
  have hsel : (s.select r.cursor).cursor? = some c := hc
  have hrun : runRequest r s = runCommand k c (s.select r.cursor) := by
    simp [runRequest, hk, hsel]
  rw [hrun]
  cases hm with
  | reset => rfl
  | start base len hb => simp [runCommand, cmdStart, Nat.not_lt.2 hb]
  | hasNext => rw [State.setCursor_self hsel]; rfl
  | read index v hv => rw [State.setCursor_self hsel]; simp [runCommand, cmdRead, hv]
  | idle hph => rw [State.setCursor_self hsel]; simp [runCommand, cmdNext, hph]
  | ended hph => simp [runCommand, cmdNext, hph]
  | faulted code hph hc => simp [runCommand, cmdNext, hph, hc]
  | endOfStream hph hp => simp [runCommand, cmdNext, hph, nextActive, hp]
  | unrecognized b0 b1 hph hp h0 h1 hcl =>
    have h0' : (s.select r.cursor).memRead c.pos = some b0 := h0
    have h1' : (s.select r.cursor).memRead (c.pos + 1) = some b1 := h1
    simp [runCommand, cmdNext, hph, nextActive, hp, h0', h1', nextPeeked, hcl, State.raise,
      errResponse]
  | truncated b0 b1 v len hph hp h0 h1 hcl hl =>
    have h0' : (s.select r.cursor).memRead c.pos = some b0 := h0
    have h1' : (s.select r.cursor).memRead (c.pos + 1) = some b1 := h1
    simp [runCommand, cmdNext, hph, nextActive, hp, h0', h1', nextPeeked, hcl, hl, State.raise,
      errResponse]
  | accepted b0 b1 v len span hph hp h0 h1 hcl hl hs =>
    have h0' : (s.select r.cursor).memRead c.pos = some b0 := h0
    have h1' : (s.select r.cursor).memRead (c.pos + 1) = some b1 := h1
    have hs' : (s.select r.cursor).slice c.pos len = some span := by
      rw [← hs]
      exact State.slice_congr fun _ _ _ => rfl
    simp [runCommand, cmdNext, hph, nextActive, hp, h0', h1', nextPeeked, hcl, hl, hs',
      exec_eq_deliver, State.deliver_eq hsel, acceptedRecord]

/-- A refused request (R225). -/
theorem runRequest_refused {r : Request} {s : State} (h : s.Refuses r) :
    runRequest r s = .next (s.select r.cursor).badRange := by
  unfold runRequest
  split
  · rename_i k c hk hc
    rcases h with h | h | ⟨base, len, h, hb⟩
    · rw [h] at hk; cases hk
    · rw [show (s.select r.cursor).cursor? = s.cursors[r.cursor]? from rfl, h] at hc; cases hc
    · obtain rfl : Command.start base len = k := Option.some.inj (h.symm.trans hk)
      simp [runCommand, cmdStart, hb]
  · rfl

/-- Issuing a request runs it on the state: the moves still to come are as they were. -/
theorem State.request_eq (s : State) (r : Request) : s.request r = runRequest r s := rfl

theorem State.request_cases {r : Request} {s t : State} (h : s.request r = .next t) :
    (s.Refuses r ∧ t = (s.select r.cursor).badRange) ∨
    ∃ c k c' code p, s.cursors[r.cursor]? = some c ∧ r.command = some k ∧
      CursorMove s c k c' code p ∧ t = ((s.select r.cursor).setCursor c').respond code p :=
  runRequest_cases h

theorem State.request_of_move {r : Request} {s : State} {c c' : Cursor} {k : Command}
    {code : RespCode} {p : Payload} (hc : s.cursors[r.cursor]? = some c)
    (hk : r.command = some k) (hm : CursorMove s c k c' code p) :
    s.request r = .next (((s.select r.cursor).setCursor c').respond code p) :=
  runRequest_of_move hc hk hm

theorem State.request_refused {r : Request} {s : State} (h : s.Refuses r) :
    s.request r = .next (s.select r.cursor).badRange :=
  runRequest_refused h

end Sys2Proof.Machine
end

