-- ==== Sys2Proof/Tests/Slice0.lean ====
section
/-! SUPPORT. Tests: an ill-formed term for each check of WellFormed, words and vectors of
95_test_vectors.md (the expected results are the spec's), and, for every statement with hypotheses, a
concrete state and operands that meet them. -/

namespace Sys2Proof.Tests

open Sys2Proof Sys2Proof.Machine

/-! ### WellFormed refuses -/

theorem test_wf_refuses_displacement_at_mod_00 :
    (Instr.rmr 0 0 0 0 0 (.disp8 1) none).wellFormed = false := by decide

theorem test_wf_refuses_no_displacement_at_mod_01 :
    (Instr.rmr 0 0 1 0 0 .noDisp none).wellFormed = false := by decide

theorem test_wf_refuses_disp8_at_mod_10 :
    (Instr.rmr 0 0 2 0 0 (.disp8 1) none).wellFormed = false := by decide

theorem test_wf_refuses_disp16_at_mod_11 :
    (Instr.rmr 0 0 3 0 0 (.disp16 1) none).wellFormed = false := by decide

theorem test_wf_refuses_missing_direct_address :
    (Instr.rmr 0 0 0 0 6 .noDisp none).wellFormed = false := by decide

theorem test_wf_refuses_direct_address_elsewhere :
    (Instr.rmr 0 0 1 0 6 (.disp8 1) (some 5)).wellFormed = false := by decide

theorem test_wf_refuses_irm_displacement :
    (Instr.irm 0 0 0 6 (.disp16 5) 1).wellFormed = false := by decide

theorem test_wf_refuses_wide_irm_data :
    (Instr.irm 0 0 0 0 .noDisp 256).wellFormed = false := by decide

theorem test_wf_refuses_wide_ir_data : (Instr.ir 0 0 256).wellFormed = false := by decide

theorem test_wf_refuses_wide_mta_address : (Instr.mta 0 256).wellFormed = false := by decide

theorem test_wf_refuses_wide_atm_address : (Instr.atm 0 256).wellFormed = false := by decide

/-! ### Decoding: words written out bit by bit from the formats of 30_encoding.md -/

/-- R71: `100010 d=0 w=1`, then `mod=11 reg=011 rm=001` (PAH §8 example 1, `89 D9`). -/
theorem test_decode_rmr_registers :
    decode [0b10001001, 0b11011001] = .ok (.rmr 0 1 3 3 1 .noDisp none, []) := by decide

/-- R71: `100010 d=1 w=1`, `mod=00 reg=011 rm=110`, address `34 12` (V-RMR-6). -/
theorem test_decode_rmr_direct :
    decode [0b10001011, 0b00011110, 0x34, 0x12, 0x90] =
      .ok (.rmr 1 1 0 3 6 .noDisp (some 0x1234), [0x90]) := by decide

/-- R71: `100010 d=0 w=1`, `mod=10 reg=000 rm=111`, displacement `00 80` (V-RMR-11). -/
theorem test_decode_rmr_disp16 :
    decode [0b10001001, 0b10000111, 0x00, 0x80] =
      .ok (.rmr 0 1 2 0 7 (.disp16 0x8000) none, []) := by decide

/-- R72: `1100011 w=1`, `mod=10 xxx=000 rm=101`, displacement first, then data (V-IRM-6). -/
theorem test_decode_irm_longest :
    decode [0b11000111, 0b10000101, 0x10, 0x00, 0xFF, 0xFF] =
      .ok (.irm 1 2 0 5 (.disp16 0x0010) 0xFFFF, []) := by decide

/-- R86, 90_conflicts.md C5: `mod=00 rm=110` holds no address, length 3 (program P4). -/
theorem test_decode_irm_unresolved :
    decode [0b11000110, 0b00000110, 0x05, 0xB0, 0x01] =
      .ok (.irm 0 0 0 6 .noDisp 5, [0xB0, 0x01]) := by decide

/-- R73: `1011 w=1 reg=000` (PAH §8 example 3). -/
theorem test_decode_ir_word :
    decode [0b10111000, 0x01, 0x00] = .ok (.ir 1 0 1, []) := by decide

/-- R73: `1011 w=0 reg=100` (V-IR-2). -/
theorem test_decode_ir_byte : decode [0b10110100, 0x12] = .ok (.ir 0 4 0x12, []) := by decide

/-- R74: `1010000 w=1` (PAH §8 example 4 as 90_conflicts.md C3 reads it). -/
theorem test_decode_mta_word :
    decode [0b10100001, 0x00, 0x01] = .ok (.mta 1 256, []) := by decide

/-- R74, program P6: `1010000 w=0` takes one address byte and leaves the third. -/
theorem test_decode_mta_byte :
    decode [0b10100000, 0x00, 0x01] = .ok (.mta 0 0, [0x01]) := by decide

/-- R75: `1010001 w=1` (V-ATM-1). -/
theorem test_decode_atm_word :
    decode [0b10100011, 0x00, 0x80] = .ok (.atm 1 0x8000, []) := by decide

/-- R85, 90_conflicts.md C1: the literal prefix of the source is unrecognized. -/
theorem test_decode_rejects_literal_prefix :
    decode [0x20, 0x00] = .error (.unrecognizedOpcode 0x20) := by decide

/-- R222, V-C-6. -/
theorem test_decode_rejects_truncated :
    decode [0xB8, 0x01] = .error (.truncatedInstruction 0xB8) := by decide

/-- R223. -/
theorem test_decode_rejects_one_byte : decode [0xB0] = .error .endOfStream := by decide

/-- Opcode-table words: byte 0 of each row, every later bit 0. -/
theorem test_decode_table_words :
    decodeTableWord 8 0x88 = some (.rmr 0 0 0 0 0 .noDisp none) ∧
    decodeTableWord 8 0xA0 = some (.mta 0 0) ∧ decodeTableWord 8 0xA3 = some (.atm 1 0) ∧
    decodeTableWord 8 0xC7 = some (.irm 1 0 0 0 .noDisp 0) ∧
    decodeTableWord 8 0xB8 = some (.ir 1 0 0) ∧ decodeTableWord 8 0x90 = none ∧
    decodeTableWord 16 0xD989 = some (.rmr 0 1 3 3 1 .noDisp none) := by decide

/-! ### A small machine -/

/-- A machine of 16 bytes with one cursor instance over all the given bytes, at offset `pos` of an
active pass. -/
def machineAt (bytes : List Byte) (pos : Nat) : State where
  bufCap := 16
  buf := Memory.insertAll [] 0 bytes
  cursors := [⟨pos, 0, bytes.length, .active, .none, 0, 0, none⟩]
  sel := 0
  pending := []
  response := none

/-- The cursor instance 0 after a request of it. -/
def cursorAfter (s : State) (r : Request) : Option Cursor :=
  match s.request r with
  | .next t => t.cursors[0]?
  | _ => none

/-- The response code to a request. -/
def codeOf (s : State) (r : Request) : Option RespCode :=
  match s.request r with
  | .next t => t.response.map Response.code
  | _ => none

/-- Length, destination and source of the record of one `NEXT`. -/
def decodedNext (bytes : List Byte) : Option (Nat × Operand × Operand) :=
  ((cursorAfter (machineAt bytes 0) (nextRequest 0)).bind Cursor.res).map
    fun r => (r.len, r.dst, r.src)

/-- The text of the record of one `NEXT`, with `IMM_SIGNED = false`. -/
def textNext (bytes : List Byte) : Option (Except RenderError String) :=
  ((cursorAfter (machineAt bytes 0) (nextRequest 0)).bind Cursor.res).map fun r => r.render false

/-! ### Instructions: vectors of 95_test_vectors.md section 5 -/

/-- V-RMR-4: `8A E0`, `d=1 w=0`, `ah` from `al`. -/
theorem test_rmr_register_direct :
    decodedNext [0x8A, 0xE0] = some (2, .reg 0x4, .reg 0x0) := by decide

/-- V-RMR-7: a direct address as the destination. -/
theorem test_rmr_direct_destination :
    decodedNext [0x89, 0x06, 0xFF, 0xFF] = some (4, .memDirect 0xFFFF 1, .reg 0x8) := by decide

/-- V-IRM-5: displacement 2, then the data 256. -/
theorem test_irm_displacement_then_data :
    decodedNext [0xC7, 0x42, 0x02, 0x00, 0x01] =
      some (5, .memEA 2 (.disp8 2) 1, .imm 0x0100 .w16) := by decide

/-- V-IRM-8: the unresolved destination with its data. -/
theorem test_irm_unresolved :
    decodedNext [0xC7, 0x06, 0x34, 0x12] = some (4, .unresolved 1, .imm 0x1234 .w16) := by decide

/-- V-IR-4: `sp`, not `ah`. -/
theorem test_ir_word :
    decodedNext [0xBC, 0x00, 0xF0] = some (3, .reg 0xC, .imm 0xF000 .w16) := by decide

/-- V-IR-3: raw data, no sign. -/
theorem test_ir_byte : decodedNext [0xB7, 0x80] = some (2, .reg 0x7, .imm 0x80 .w8) := by decide

/-- V-MTA-2: one address byte, zero-extended. -/
theorem test_mta_byte : decodedNext [0xA0, 0x10] = some (2, .reg 0x0, .memDirect 16 0) := by decide

/-- V-ATM-1: address 32768, unsigned. -/
theorem test_atm_word :
    decodedNext [0xA3, 0x00, 0x80] = some (3, .memDirect 0x8000 1, .reg 0x8) := by decide

/-! ### Commands: vectors of 95_test_vectors.md section 6 -/

/-- V-C-1. -/
theorem test_next_after_reset : codeOf State.reset (nextRequest 0) = some .notActive := by decide

/-- V-C-3: `BUF_CAP = 16`, `START(10, 7)`. -/
theorem test_start_out_of_range :
    codeOf { machineAt [] 0 with cursors := [Cursor.reset] } ⟨0, 1, 10, 7⟩ = some .badRange ∧
    cursorAfter { machineAt [] 0 with cursors := [Cursor.reset] } ⟨0, 1, 10, 7⟩ =
      some Cursor.reset := by decide

/-- V-C-5: a 1-byte tail. -/
theorem test_next_at_a_tail :
    codeOf (machineAt [0xB0] 0) (nextRequest 0) = some .endOfStream ∧
    cursorAfter (machineAt [0xB0] 0) (nextRequest 0) =
      some ⟨0, 0, 1, .ended, .none, 0, 0, none⟩ := by decide

/-- V-C-6. -/
theorem test_next_truncated :
    codeOf (machineAt [0xB8, 0x01] 0) (nextRequest 0) = some .truncatedInstruction ∧
    cursorAfter (machineAt [0xB8, 0x01] 0) (nextRequest 0) =
      some ⟨0, 0, 2, .faulted, .truncatedInstruction, 0, 0xB8, none⟩ := by decide

/-- V-C-10. -/
theorem test_next_unrecognized :
    codeOf (machineAt [0x90, 0x90] 0) (nextRequest 0) = some .unrecognizedOpcode ∧
    cursorAfter (machineAt [0x90, 0x90] 0) (nextRequest 0) =
      some ⟨0, 0, 2, .faulted, .unrecognizedOpcode, 0, 0x90, none⟩ := by decide

/-- V-C-9: `START` leaves `FAULTED`. -/
theorem test_start_leaves_faulted :
    cursorAfter
      { machineAt [0xB8, 0x01] 0 with
        cursors := [⟨0, 0, 2, .faulted, .truncatedInstruction, 0, 0xB8, none⟩] }
      ⟨0, 1, 0, 2⟩ = some ⟨0, 0, 2, .active, .none, 0, 0, none⟩ := by decide

/-- R223: program P2's end, the tail at offset 9 of 10. -/
theorem test_has_next_false_at_a_tail :
    (Cursor.mk 9 0 10 .active .none 0 0 none).hasNext = false ∧
    (Cursor.mk 8 0 10 .active .none 0 0 none).hasNext = true := by decide

/-! ### Register map: 95_test_vectors.md section 8 -/

/-- The bytes of program P1. -/
def programP1 : List Byte :=
  [0x89, 0xD9, 0x8B, 0x41, 0xDB, 0xB8, 0x01, 0x00, 0xA1, 0x00, 0x01]

/-- After the `NEXT` at offset 2 of program P1, the registers of section 8. -/
theorem test_register_map :
    (cursorAfter (machineAt programP1 2) (nextRequest 0)).map
      (fun c => [0, 5, 6, 7, 8, 9, 10, 11, 12, 13].map c.readReg) =
    some [some 0x31, some 0x00061F30, some 2, some 0x00DB418B, some 0, some 0xFFDB0001, some 0,
      some 0, some 0xC1, some 0x8A] := by decide

/-! ### Renderer: the texts of 95_test_vectors.md -/

/-- L1-2, V-RMR-8, V-IRM-4. -/
theorem test_render_memory :
    textNext [0x8B, 0x41, 0xDB] = some (.ok "mov ax, [bx+di + -37]") ∧
    textNext [0x88, 0x46, 0x00] = some (.ok "mov [bp], al") ∧
    textNext [0xC6, 0x4F, 0xF6, 0x09] = some (.ok "mov [bx + -10], byte 9") := by
  refine ⟨?_, ?_, ?_⟩ <;> decide

/-- L1-3, L1-4, V-IRM-7. -/
theorem test_render_others :
    textNext [0xB8, 0x01, 0x00] = some (.ok "mov ax, 1") ∧
    textNext [0xA1, 0x00, 0x01] = some (.ok "mov ax, [256]") ∧
    textNext [0xC6, 0x06, 0x05] = some (.error .unresolvedOperand) := by
  refine ⟨?_, ?_, ?_⟩ <;> decide

/-! ### Placing an instruction -/

/-- After reset, a placed table word runs as the first instruction: `RES` holds its record. -/
theorem test_placed_word_runs :
    (match step (State.reset.withFetchWord 8 0xC7) with
      | .next t => (t.cursors[0]?.bind Cursor.res).map fun r => (r.len, r.dst, r.src)
      | _ => none) = some (4, .memEA 0 .noDisp 1, .imm 0 .w16) := by decide

/-! ### Witnesses: what meets the hypotheses of the statements -/

/-- DecodeOfEncode, DecodedBytesAreTheEncoding: each variant has well-formed instructions. -/
theorem witness_well_formed :
    (Instr.rmr 1 1 0 3 6 .noDisp (some 0x1234)).wellFormed = true ∧
    (Instr.mta 0 255).wellFormed = true ∧ (Instr.atm 1 0xFFFF).wellFormed = true ∧
    (Instr.irm 1 2 5 6 (.disp16 0x8000) 0xFFFF).wellFormed = true ∧
    (Instr.ir 0 7 255).wellFormed = true := by decide

/-- PrefixOrderDoesNotMatter: the reverse order is an order. -/
theorem witness_prefix_order : prefixTable.reverse.Perm prefixTable := List.reverse_perm _

/-- The record's field `disp` (R32): `NoDisp` for `89 D9`, and `None` for `B8 01 00`. -/
theorem test_disp_field :
    (recordOf (.rmr 0 1 3 3 1 .noDisp none) 0
      (decodedOf (.rmr 0 1 3 3 1 .noDisp none))).disp? = some .noDisp ∧
    (recordOf (.ir 1 0 1) 0 (decodedOf (.ir 1 0 1))).disp? = none ∧
    (recordOf (.ir 1 0 1) 0 (decodedOf (.ir 1 0 1))).readReg 9 = 0 := by decide

/-- OpcodeMapOfByteZero: both ends of each range of the map (R84). -/
theorem witness_opcode_map :
    [0x88, 0x8B, 0xA0, 0xA1, 0xA2, 0xA3, 0xB0, 0xBF, 0xC6, 0xC7].map matchPrefix =
      [some .rmr, some .rmr, some .mta, some .mta, some .atm, some .atm, some .ir, some .ir,
        some .irm, some .irm] := by decide

/-- LengthOfEveryVariant: each variant, at its shortest or longest. -/
theorem witness_lengths :
    classify 0x88 0x06 = some (.rmr, 4) ∧ classify 0xC7 0x85 = some (.irm, 6) ∧
    classify 0xBF 0xFF = some (.ir, 3) ∧ classify 0xA0 0x00 = some (.mta, 2) ∧
    classify 0xA3 0xFF = some (.atm, 3) := by decide

/-- ExtractionReadsOnlyTheSpan. -/
theorem witness_span :
    classify 0xC7 0x85 = some (.irm, ([0xC7, 0x85, 0x10, 0x00, 0xFF, 0xFF] : List Byte).length) := by
  decide

/-- IrmRegBitsSelectNothing: `C6 38` and `C6 00` (V-IRM-3). -/
theorem witness_irm_reg_bits :
    matchPrefix 0xC6 = some .irm ∧ (0x38 : Byte).toNat / 64 = (0x00 : Byte).toNat / 64 ∧
    (0x38 : Byte).toNat % 8 = (0x00 : Byte).toNat % 8 := by decide

/-- RmrDeliversItsRecord: an accepted span in each of the forms of `mod`, `rm` and `d`. -/
theorem witness_rmr :
    ((Instr.rmr 0 1 3 3 1 .noDisp none).wellFormed = true ∧
      (machineAt [0x89, 0xD9] 0).Accepts ⟨0, 0, 2, .active, .none, 0, 0, none⟩
        (2 + dispLen 3 1 true)) ∧
    ((Instr.rmr 1 1 0 3 6 .noDisp (some 0x1234)).wellFormed = true ∧
      (machineAt [0x8B, 0x1E, 0x34, 0x12] 0).Accepts ⟨0, 0, 4, .active, .none, 0, 0, none⟩
        (2 + dispLen 0 6 true)) ∧
    ((Instr.rmr 1 1 1 0 1 (.disp8 0xDB) none).wellFormed = true ∧
      (machineAt [0x8B, 0x41, 0xDB] 0).Accepts ⟨0, 0, 3, .active, .none, 0, 0, none⟩
        (2 + dispLen 1 1 true)) := by
  refine ⟨⟨by decide, rfl, rfl, by decide⟩, ⟨by decide, rfl, rfl, by decide⟩,
    ⟨by decide, rfl, rfl, by decide⟩⟩

/-- IrmDeliversItsRecord: the register form, the unresolved form and a memory form. -/
theorem witness_irm :
    ((Instr.irm 1 3 0 1 .noDisp 0x1234).wellFormed = true ∧
      (machineAt [0xC7, 0xC1, 0x34, 0x12] 0).Accepts ⟨0, 0, 4, .active, .none, 0, 0, none⟩
        (3 + (1 : Bit).toNat + dispLen 3 1 false)) ∧
    ((Instr.irm 0 0 0 6 .noDisp 5).wellFormed = true ∧
      (machineAt [0xC6, 0x06, 0x05] 0).Accepts ⟨0, 0, 3, .active, .none, 0, 0, none⟩
        (3 + (0 : Bit).toNat + dispLen 0 6 false)) ∧
    ((Instr.irm 1 2 0 5 (.disp16 0x10) 0xFFFF).wellFormed = true ∧
      (machineAt [0xC7, 0x85, 0x10, 0x00, 0xFF, 0xFF] 0).Accepts
        ⟨0, 0, 6, .active, .none, 0, 0, none⟩ (3 + (1 : Bit).toNat + dispLen 2 5 false)) := by
  refine ⟨⟨by decide, rfl, rfl, by decide⟩, ⟨by decide, rfl, rfl, by decide⟩,
    ⟨by decide, rfl, rfl, by decide⟩⟩

/-- IrDeliversItsRecord, MtaDeliversItsRecord, AtmDeliversItsRecord, for both widths. -/
theorem witness_ir_mta_atm :
    ((Instr.ir 1 0 1).wellFormed = true ∧ (Instr.mta 1 256).wellFormed = true ∧
      (Instr.atm 1 256).wellFormed = true ∧
      (machineAt [0xB8, 0x01, 0x00] 0).Accepts ⟨0, 0, 3, .active, .none, 0, 0, none⟩
        (2 + (1 : Bit).toNat)) ∧
    ((Instr.ir 0 7 255).wellFormed = true ∧ (Instr.mta 0 255).wellFormed = true ∧
      (Instr.atm 0 0).wellFormed = true ∧
      (machineAt [0xB7, 0xFF] 0).Accepts ⟨0, 0, 2, .active, .none, 0, 0, none⟩
        (2 + (0 : Bit).toNat)) := by
  refine ⟨⟨by decide, by decide, by decide, rfl, rfl, by decide⟩,
    ⟨by decide, by decide, by decide, rfl, rfl, by decide⟩⟩

/-- InstructionFrame: exec answers a next state, here even for a cursor id that names no instance. -/
theorem witness_frame :
    exec (.ir 0 0 5) { machineAt [0xB0, 0x05] 0 with sel := 1 } =
      .next { machineAt [0xB0, 0x05] 0 with sel := 1, response := some ⟨.badRange, .none⟩ } ∧
    (∃ t, exec (.ir 0 0 5) (machineAt [0xB0, 0x05] 0) = .next t) :=
  ⟨rfl, _, rfl⟩

/-- StepRunsTheDecodedInstruction. -/
theorem witness_step :
    (nextRequest 0).command = some .next ∧
    (machineAt [0xB0, 0x05, 0x90] 0).cursors[(nextRequest 0).cursor]? =
      some ⟨0, 0, 3, .active, .none, 0, 0, none⟩ ∧
    (machineAt [0xB0, 0x05, 0x90] 0).slice 0 (3 - 0) = some [0xB0, 0x05, 0x90] ∧
    decode [0xB0, 0x05, 0x90] = .ok (.ir 0 0 5, [0x90]) := by decide

/-- A machine after reset with two moves of the host to come. -/
def machineFacing (e : HostEvent) : State := { State.reset with pending := [e, .powerOn] }

/-- StepTakesOneHostMove: a state with no move, and one facing each kind of move, with a next state
where the statement asks for one. -/
theorem witness_host_moves :
    State.reset.pending = [] ∧
    (machineFacing (.writeMap 0 1 5)).pending = [.writeMap 0 1 5, .powerOn] ∧
    (machineFacing .powerOn).pending = [.powerOn, .powerOn] ∧
    (∃ t : State, step (machineFacing (.command ⟨7, 3, 0, 0⟩)) = .next t) ∧
    ∃ t : State, step (machineFacing (.load 0 [0x89])) = .next t := by
  exact ⟨rfl, rfl, rfl, ⟨_, rfl⟩, _, rfl⟩

/-- NextRecordIsTheByteArithmetic, ReparsedFieldsAgree, RecordFieldsByVariant: a `NEXT` that responds
`OK`. -/
theorem witness_next_ok :
    ∃ (t : State) (rec : Record), (machineAt [0x89, 0xD9] 0).request (nextRequest 0) = .next t ∧
      t.response = some ⟨.ok, .record rec⟩ := ⟨_, _, rfl, rfl⟩

/-- ResetState: there is a cursor instance at reset. -/
theorem witness_reset : Cursor.reset ∈ State.reset.cursors := by decide

/-- ResetCommandAndPowerOn, StartBeginsAPass (both ranges, at the bound), HasNextAnswersOneBit. -/
theorem witness_commands :
    (Request.mk 0 0 0 0).command = some .reset ∧
    (Request.mk 0 1 10 6).command = some (.start 10 6) ∧
    10 + 6 ≤ (machineAt [] 0).bufCap ∧
    (Request.mk 0 1 10 7).command = some (.start 10 7) ∧
    10 + 7 > (machineAt [] 0).bufCap ∧
    (Request.mk 0 2 0 0).command = some .hasNext ∧
    (machineAt [] 0).cursors[0]? = some ⟨0, 0, 0, .active, .none, 0, 0, none⟩ := by decide

/-- ReadReturnsTheRegister: each clause, at the bounds 4, 5, 13, 14 and 15. -/
theorem witness_read :
    (Request.mk 0 4 5 0).command = some (.read 5) ∧
    (machineAt [] 0).request ⟨0, 4, 5, 0⟩ = .fault .resNotValid ∧
    (machineAt [] 0).request ⟨0, 4, 13, 0⟩ = .fault .resNotValid ∧
    codeOf (machineAt [] 0) ⟨0, 4, 4, 0⟩ = some .ok ∧
    codeOf (machineAt [] 0) ⟨0, 4, 14, 0⟩ = some .ok ∧
    codeOf (machineAt [] 0) ⟨0, 4, 15, 0⟩ = some .ok :=
  ⟨rfl, rfl, rfl, rfl, rfl, rfl⟩

/-- ResultRegistersOfTheMap: a cursor instance with a valid result. -/
theorem witness_result :
    ∃ (c : Cursor) (r : Record), cursorAfter (machineAt programP1 2) (nextRequest 0) = some c ∧
      c.res = some r := ⟨_, _, rfl, rfl⟩

/-- A machine whose cursor instance is in a given phase. -/
def machineIn (phase : Phase) (err : ErrCode) : State :=
  { machineAt [0xB8, 0x01] 0 with cursors := [⟨0, 0, 2, phase, err, 0, 0, none⟩] }

/-- NextOutsideActive, OnlyStartOrResetLeavesAnError: the three phases, and a next state. -/
theorem witness_phases :
    codeOf (machineIn .idle .none) (nextRequest 0) = some .notActive ∧
    codeOf (machineIn .ended .none) (nextRequest 0) = some .endOfStream ∧
    codeOf (machineIn .faulted .truncatedInstruction) (nextRequest 0) =
      some .truncatedInstruction ∧
    codeOf (machineIn .faulted .unrecognizedOpcode) (nextRequest 0) = some .unrecognizedOpcode ∧
    codeOf (machineIn .faulted .none) (nextRequest 0) = some .endOfStream ∧
    cursorAfter (machineIn .faulted .unrecognizedOpcode) ⟨0, 0, 0, 0⟩ = some Cursor.reset ∧
    codeOf (machineIn .ended .none) ⟨0, 1, 0, 16⟩ = some .ok := by decide

/-- NextAtTheEnd: one byte left, and none. -/
theorem witness_end :
    (machineAt [0xB0] 0).cursors[0]? = some ⟨0, 0, 1, .active, .none, 0, 0, none⟩ ∧ 0 + 1 ≥ 1 ∧
    (machineAt [0xB0, 0x05] 2).cursors[0]? = some ⟨2, 0, 2, .active, .none, 0, 0, none⟩ ∧
    2 + 1 ≥ 2 := by decide

/-- NextAtAnUnrecognizedOpcode. -/
theorem witness_unrecognized :
    (machineAt [0x90, 0x90] 0).cursors[0]? = some ⟨0, 0, 2, .active, .none, 0, 0, none⟩ ∧
    0 + 1 < 2 ∧ 2 ≤ (machineAt [0x90, 0x90] 0).bufCap ∧
    (machineAt [0x90, 0x90] 0).memRead 0 = some 0x90 ∧
    (∀ e ∈ prefixTable, (0x90 : Byte) &&& e.mask ≠ e.value) ∧
    codeOf (machineAt [0x90, 0x90] 0) (nextRequest 0) = some .unrecognizedOpcode := by decide

/-- NextAtATruncatedInstruction. -/
theorem witness_truncated :
    (machineAt [0xB8, 0x01] 0).cursors[0]? = some ⟨0, 0, 2, .active, .none, 0, 0, none⟩ ∧
    0 + 1 < 2 ∧ (machineAt [0xB8, 0x01] 0).memRead 0 = some 0xB8 ∧
    (machineAt [0xB8, 0x01] 0).memRead (0 + 1) = some 0x01 ∧
    classify 0xB8 0x01 = some (.ir, 3) ∧ 0 + 3 > 2 ∧
    codeOf (machineAt [0xB8, 0x01] 0) (nextRequest 0) = some .truncatedInstruction := by decide

/-- BadRangeChangesNothing: a cursor id one past the last, an unused code, a range one past the end. -/
theorem witness_bad_range :
    (machineAt [] 0).cursors.length ≤ (nextRequest 1).cursor ∧
    (Request.mk 0 5 0 0).command = none ∧ (Request.mk 0 7 0 0).command = none ∧
    (Request.mk 0 1 16 1).command = some (.start 16 1) ∧ 16 + 1 > (machineAt [] 0).bufCap := by
  decide

/-- OnlyASuccessfulNextAdvances, CommandsOnlyReadTheBuffer, OtherCursorsAreUntouched: a `NEXT` that
moves `POS`, and one that does not. -/
theorem witness_advance :
    (cursorAfter (machineAt [0x89, 0xD9] 0) (nextRequest 0)).map Cursor.pos = some 2 ∧
    (cursorAfter (machineAt [0x90, 0xD9] 0) (nextRequest 0)).map Cursor.pos = some 0 := by decide

/-- Two cursor instances over one buffer (V-C-13). -/
def twoCursors : State :=
  { machineAt [0xB0, 0x01, 0xB1, 0x02, 0xB2, 0x03, 0xB3, 0x04] 0 with
    cursors := [⟨0, 0, 4, .active, .none, 0, 0, none⟩, ⟨4, 4, 8, .active, .none, 0, 0, none⟩] }

/-- CommandsOfDifferentCursorsCommute. -/
theorem witness_commute :
    (nextRequest 0).cursor ≠ (nextRequest 1).cursor ∧
    ∃ s₁ s₂ : State, twoCursors.request (nextRequest 0) = .next s₁ ∧
      s₁.request (nextRequest 1) = .next s₂ := ⟨by decide, _, _, rfl, rfl⟩

/-- The invariant holds of a machine in the middle of a pass. -/
theorem witness_inv_active : (machineAt [0x89, 0xD9] 0).Inv where
  cap_two := by decide
  has_cursor := by decide
  buf_wf := by decide
  buf_in_cap := by decide
  cursor_inv := by
    intro c hc
    obtain rfl := List.mem_singleton.1 hc
    exact ⟨by decide, by decide, by decide, by decide, fun _ => ⟨rfl, rfl⟩, by decide, by decide,
      fun h => absurd rfl h⟩
  result_inv := by
    intro c hc r hr
    obtain rfl := List.mem_singleton.1 hc
    cases hr

/-- A machine with a valid result: the state after `89 D9`. -/
def machineWithResult : State :=
  { machineAt [0x89, 0xD9] 0 with
    cursors := [⟨2, 0, 2, .active, .none, 0, 0,
      some (recordOf (.rmr 0 1 3 3 1 .noDisp none) 0
        (decodedOf (.rmr 0 1 3 3 1 .noDisp none)))⟩] }

/-- The invariant holds of a machine that holds a valid result, so its clauses about `RES` are met
and not empty. -/
theorem witness_inv_result : machineWithResult.Inv where
  cap_two := by decide
  has_cursor := by decide
  buf_wf := by decide
  buf_in_cap := by decide
  cursor_inv := by
    intro c hc
    obtain rfl := List.mem_singleton.1 hc
    exact ⟨by decide, by decide, by decide, by decide, fun _ => ⟨rfl, rfl⟩, by decide, by decide,
      fun _ => rfl⟩
  result_inv := by
    intro c hc r hr
    obtain rfl := List.mem_singleton.1 hc
    obtain rfl := Option.some.inj hr
    exact ⟨by decide, by decide, by decide, _, by decide, rfl⟩

/-- EveryStepKeepsTheInvariant: a step from a state that meets it, with a move to take. -/
theorem witness_step_of_inv :
    ∃ t : State, step { machineAt [0x89, 0xD9] 0 with pending := [.command (nextRequest 0)] } =
      .next t := ⟨_, rfl⟩

/-- CommandsReadOnlyTheirPass: another buffer that agrees on `[BASE, END)` and differs outside it. -/
theorem witness_other_buffer :
    (machineAt [0x89, 0xD9] 0).cursors[(nextRequest 0).cursor]? =
      some ⟨0, 0, 2, .active, .none, 0, 0, none⟩ ∧
    (∀ a : Nat, 0 ≤ a → a < 2 →
      { machineAt [0x89, 0xD9] 0 with
        buf := [(0, 0x89), (1, 0xD9), (2, 0x77)] }.memRead a =
        (machineAt [0x89, 0xD9] 0).memRead a) ∧
    ∃ t, (machineAt [0x89, 0xD9] 0).request (nextRequest 0) = .next t := by
  refine ⟨rfl, ?_, _, rfl⟩
  intro a _ ha
  rcases a with _ | _ | a
  · rfl
  · rfl
  · omega

/-- EveryCommandCompletes: a state with no valid result, and a `READ` it excludes nothing of. -/
theorem witness_completes :
    (Request.mk 0 4 14 0).command = some (.read 14) ∧ ¬ (5 ≤ 14 ∧ 14 ≤ 13) ∧
    (nextRequest 0).command ≠ some (.read 5) := by decide

/-- RecordsOfAPassCoverTheBuffer: two records of program P1, and none. -/
theorem witness_pass :
    (∃ p, (machineAt programP1 0).nexts 0 2 = some p) ∧
    (machineAt programP1 0).nexts 0 0 = some ([], machineAt programP1 0) ∧
    (machineAt programP1 0).cursors[0]? = some ⟨0, 0, 11, .active, .none, 0, 0, none⟩ :=
  ⟨⟨_, rfl⟩, rfl, rfl⟩

/-- EveryPassEnds: an active pass of a machine that meets the invariant (`witness_inv_active`). -/
theorem witness_pass_active :
    (machineAt [0x89, 0xD9] 0).cursors[0]? = some ⟨0, 0, 2, .active, .none, 0, 0, none⟩ := by decide

/-- HostLoadWritesBetweenPasses: each clause, at the bounds of the buffer and of the pass. -/
theorem witness_load :
    (15 + ([1, 2] : List Byte).length > (machineAt [0x89, 0xD9] 0).bufCap) ∧
    (machineAt [0x89, 0xD9] 0).issue (.load 1 [7]) = .refused .hostWroteActivePass ∧
    (∃ t, (machineAt [0x89, 0xD9] 0).issue (.load 2 [7]) = .next t) ∧
    (∃ t, (machineIn .ended .none).issue (.load 0 [7]) = .next t) :=
  ⟨by decide, rfl, ⟨_, rfl⟩, ⟨_, rfl⟩⟩

/-- PlacedInstructionRuns: table words of all five rows, and a machine with a cursor instance. -/
theorem witness_placed :
    State.reset.cursors ≠ [] ∧ (decodeTableWord 8 0x8B).isSome ∧ (decodeTableWord 8 0xA1).isSome ∧
    (decodeTableWord 8 0xA2).isSome ∧ (decodeTableWord 8 0xC6).isSome ∧
    (decodeTableWord 8 0xBF).isSome := by decide

end Sys2Proof.Tests
end

section
/-! Proofs about the byte buffer (20_memory.md). -/

namespace Sys2Proof.Machine

/-- The frame of a request on the buffer registers: a refusal writes no register at all, and every
move writes only the named cursor instance and the response (R51). -/
theorem State.request_buf_bufCap {s t : State} {r : Request} (h : s.request r = .next t) :
    t.buf = s.buf ∧ t.bufCap = s.bufCap := by
  obtain ⟨-, rfl⟩ | ⟨c, k, c', code, p, -, -, -, rfl⟩ := State.request_cases h
  · exact ⟨by simp, by simp⟩
  · exact ⟨by simp, by simp⟩

/-- Settles O40: a request keeps the buffer and its capacity, and a read depends on nothing else. -/
theorem commandsOnlyReadTheBuffer : Obligations.CommandsOnlyReadTheBuffer := by
  intro s t r h
  obtain ⟨hbuf, hcap⟩ := State.request_buf_bufCap h
  exact ⟨hbuf, hcap, State.memRead_congr hcap hbuf⟩

end Sys2Proof.Machine
end

section
/-! Proofs about the tables and operand forms (30_encoding.md). -/

namespace Sys2Proof.Machine

/-! ### Displacements (R78) -/

/-- `signed_8` is the two's-complement reading of a byte (R8). -/
theorem signed8_eq_toInt (v : Byte) : signed8 v = v.toInt := by
  rw [signed8, BitVec.toInt_eq_toNat_cond]
  split <;> split <;> omega

/-- `signed_16` is the two's-complement reading of a 16-bit value (R8). -/
theorem signed16_eq_toInt (v : Word16) : signed16 v = v.toInt := by
  rw [signed16, BitVec.toInt_eq_toNat_cond]
  split <;> split <;> omega

/-- Sign extension keeps the integer (R8, R78). -/
theorem sext16_toInt (v : Byte) : (sext16 v).toInt = v.toInt :=
  BitVec.toInt_signExtend_of_le (by decide)

/-- The 16-bit form of a displacement reads as its integer, for each kind of displacement. -/
theorem dispWord_toInt (d : Disp) : (dispWord d).toInt = dispValue d := by
  cases d with
  | noDisp => rfl
  | disp8 v => exact (sext16_toInt v).trans (signed8_eq_toInt v).symm
  | disp16 v => exact (signed16_eq_toInt v).symm

/-- Settles O11: `signed_8`, `signed_16` and `sext_16` all keep the two's-complement integer. -/
theorem displacementsAreSigned : Obligations.DisplacementsAreSigned :=
  ⟨signed8_eq_toInt, signed16_eq_toInt, dispWord_toInt, by decide⟩

/-! ### Packed operand form (R80) -/

/-- The packed byte as a number: the three fields stand side by side and nothing else is set. -/
theorem packFields_toNat (w : Bit) (mid : BitVec 4) (kind : BitVec 3) :
    (packFields w mid kind).toNat = kind.toNat + 8 * mid.toNat + 128 * w.toNat := by
  have hmid : mid.toNat < 2 ^ 4 := mid.isLt
  have hkind : kind.toNat < 2 ^ 3 := kind.isLt
  rw [packFields, BitVec.toNat_append, BitVec.toNat_append,
    ← Nat.shiftLeft_add_eq_or_of_lt hmid, ← Nat.shiftLeft_add_eq_or_of_lt hkind,
    Nat.shiftLeft_eq, Nat.shiftLeft_eq]
  omega

/-- The width bit of a register identifier is its top bit (R21). -/
theorem regId_width_toNat (r : RegId) : (r.extractLsb' 3 1).toNat = r.toNat / 8 := by
  have hr : r.toNat < 16 := r.isLt
  rw [BitVec.extractLsb'_toNat, Nat.shiftRight_eq_div_pow]
  omega

/-- The code in bits 6:3 of a `MemEA` is the effective-address code under a zero bit. -/
theorem eaCode_padded_toNat (e : EaCode) : (0#1 ++ e).toNat = e.toNat := by
  rw [BitVec.toNat_append, BitVec.toNat_zero, Nat.zero_shiftLeft, Nat.zero_or]

/-- Settles O12: each kind of operand packs its own three fields (`packFields_toNat`). -/
theorem packedOperandForm : Obligations.PackedOperandForm := by
  refine ⟨fun r => ?reg, fun e disp w => ?memEA, fun a w => ?memDirect, fun v => ⟨?imm8, ?imm16⟩,
    fun w => ?unresolved⟩
  case reg => rw [Operand.pack, packFields_toNat, regId_width_toNat]; rfl
  case memEA => rw [Operand.pack, packFields_toNat, eaCode_padded_toNat]; rfl
  case memDirect => rw [Operand.pack, packFields_toNat]; rfl
  case imm8 => rw [Operand.pack, packFields_toNat]; rfl
  case imm16 => rw [Operand.pack, packFields_toNat]; rfl
  case unresolved => rw [Operand.pack, packFields_toNat]; rfl

end Sys2Proof.Machine
end

section
/-! Proofs about the register name table (40_lookup_tables.md). -/

namespace Sys2Proof.Machine

/-! ### The register identifier (R21) -/

/-- The width bit stands above the three bits of the code (R21). -/
theorem regId_toNat (w : Bit) (code : RegCode) :
    (regId w code).toNat = 8 * w.toNat + code.toNat := by
  have hcode : code.toNat < 2 ^ 3 := code.isLt
  rw [regId, BitVec.toNat_append, ← Nat.shiftLeft_add_eq_or_of_lt hcode, Nat.shiftLeft_eq]
  omega

@[simp] theorem regId_width (w : Bit) (code : RegCode) : (regId w code).extractLsb' 3 1 = w :=
  BitVec.extractLsb'_append_eq_left

@[simp] theorem regId_code (w : Bit) (code : RegCode) : (regId w code).extractLsb' 0 3 = code :=
  BitVec.extractLsb'_append_eq_right

/-- Naming a packed identifier reads the table at the pair it packs (R100). -/
theorem regIdName_regId (w : Bit) (code : RegCode) : regIdName (regId w code) = regName w code := by
  rw [regIdName, regId_width, regId_code]

/-! ### The sixteen names (R100) -/

/-- Settles O9: both rows of the table are read off code by code, and a packed identifier gives its
pair back. -/
theorem registerNameTable : Obligations.RegisterNameTable := by
  refine ⟨?wordRow, ?byteRow, fun w code => ⟨regId_toNat w code, regIdName_regId w code⟩⟩
  case wordRow => decide
  case byteRow => decide

end Sys2Proof.Machine
end

section
/-! Proofs about the five MOV variants (43_mov_variants.md): reading an instruction's fields back
from its own bytes, and the record that an accepted span delivers. -/

namespace Sys2Proof

/-! ### Fields of concatenated bit strings -/

theorem append_toNat_div {m n : Nat} (x : BitVec m) (y : BitVec n) :
    (x ++ y).toNat / 2 ^ n = x.toNat := by
  rw [BitVec.toNat_append, ← Nat.shiftLeft_add_eq_or_of_lt y.isLt, Nat.shiftLeft_eq, Nat.mul_comm,
    Nat.mul_add_div (Nat.two_pow_pos n), Nat.div_eq_of_lt y.isLt, Nat.add_zero]

theorem append_append_toNat_div {l m n : Nat} (x : BitVec l) (y : BitVec m) (z : BitVec n) :
    (x ++ y ++ z).toNat / 2 ^ (n + m) = x.toNat := by
  rw [Nat.pow_add, ← Nat.div_div_eq_div_mul, append_toNat_div, append_toNat_div]

theorem extractLsb'_append_middle {l m n : Nat} (x : BitVec l) (y : BitVec m) (z : BitVec n) :
    (x ++ y ++ z).extractLsb' n m = y := by
  rw [BitVec.extractLsb'_append_eq_of_le (Nat.le_refl n), Nat.sub_self,
    BitVec.extractLsb'_append_eq_right]

theorem extractLsb'_append_top {l m n : Nat} (x : BitVec l) (y : BitVec m) (z : BitVec n) :
    (x ++ y ++ z).extractLsb' (m + n) l = x := by
  rw [BitVec.extractLsb'_append_eq_of_le (Nat.le_add_left n m), Nat.add_sub_cancel,
    BitVec.extractLsb'_append_eq_left]

/-! ### The fixed fields (R120) -/

theorem modRmByte_mod (mod : ModField) (reg rm : RegCode) :
    (modRmByte mod reg rm).extractLsb' 6 2 = mod := extractLsb'_append_top mod reg rm

theorem modRmByte_reg (mod : ModField) (reg rm : RegCode) :
    (modRmByte mod reg rm).extractLsb' 3 3 = reg := extractLsb'_append_middle mod reg rm

theorem modRmByte_rm (mod : ModField) (reg rm : RegCode) :
    (modRmByte mod reg rm).extractLsb' 0 3 = rm := BitVec.extractLsb'_append_eq_right

/-- The fixed fields of an instruction are read back from the first two of its bytes (R120). -/
theorem extractFields_encode (i : Instr) :
    extractFields i.variant (spanByte (encode i) 0) (spanByte (encode i) 1) = i.fields := by
  cases i with
  | rmr d w mod reg rm disp addr =>
    show Fields.rmr ((0b100010#6 ++ d ++ w).extractLsb' 1 1)
      ((0b100010#6 ++ d ++ w).extractLsb' 0 1)
      ((modRmByte mod reg rm).extractLsb' 6 2) ((modRmByte mod reg rm).extractLsb' 3 3)
      ((modRmByte mod reg rm).extractLsb' 0 3) = .rmr d w mod reg rm
    rw [extractLsb'_append_middle, BitVec.extractLsb'_append_eq_right, modRmByte_mod, modRmByte_reg,
      modRmByte_rm]
  | irm w mod reg rm disp data =>
    show Fields.irm ((0b1100011#7 ++ w).extractLsb' 0 1) ((modRmByte mod reg rm).extractLsb' 6 2)
      ((modRmByte mod reg rm).extractLsb' 3 3) ((modRmByte mod reg rm).extractLsb' 0 3) =
      .irm w mod reg rm
    rw [BitVec.extractLsb'_append_eq_right, modRmByte_mod, modRmByte_reg, modRmByte_rm]
  | ir w reg data =>
    show Fields.ir ((0b1011#4 ++ w ++ reg).extractLsb' 3 1)
      ((0b1011#4 ++ w ++ reg).extractLsb' 0 3) = .ir w reg
    rw [extractLsb'_append_middle, BitVec.extractLsb'_append_eq_right]
  | mta w addr => exact congrArg Fields.mta BitVec.extractLsb'_append_eq_right
  | atm w addr => exact congrArg Fields.atm BitVec.extractLsb'_append_eq_right

/-! ### The length (R146) -/

/-- The bytes of a well-formed instruction are as many as the length resolver says (R83, R146). -/
theorem encode_length {i : Instr} (h : i.wellFormed = true) :
    (encode i).length = instrLen i.fields := by
  cases i with
  | rmr => exact Laws.EncodeLength.rmr _ _ _ _ _ _ _ h
  | mta => exact Laws.EncodeLength.mta _ _ h
  | atm => exact Laws.EncodeLength.atm _ _ h
  | irm => exact Laws.EncodeLength.irm _ _ _ _ _ _ h
  | ir => exact Laws.EncodeLength.ir _ _ _ h

/-! ### Data and direct addresses (R129, R130) -/

theorem spanByte_append_right {k : Nat} (pre tail : List Byte) (h : pre.length ≤ k) :
    spanByte (pre ++ tail) k = spanByte tail (k - pre.length) := by
  rw [spanByte, spanByte, List.getD_eq_getElem?_getD, List.getD_eq_getElem?_getD,
    List.getElem?_append_right h]

/-- The data that follow a prefix of the span are the data of what follows it. -/
theorem extractData_append_right (w : Bit) (pre tail : List Byte) :
    extractData w pre.length (pre ++ tail) = extractData w 0 tail := by
  rw [extractData, extractData, spanByte_append_right pre tail (Nat.le_refl _),
    spanByte_append_right pre tail (Nat.le_add_right _ 1), Nat.sub_self, Nat.add_sub_cancel_left]

/-- A value that fits its width is read back from its own bytes. -/
theorem extractData_valueBytes {w : Bit} {v : Word16} (h : valueFits w v = true) :
    extractData w 0 (valueBytes w v) = v := by
  obtain rfl | rfl := bit_cases w
  · exact zext16_loByte v (of_decide_eq_true h)
  · exact word_lo_hi v

/-- The value after a prefix of `k` bytes is read back. -/
theorem extractData_after {w : Bit} {v : Word16} {k : Nat} {pre : List Byte}
    (h : valueFits w v = true) (hk : pre.length = k) :
    extractData w k (pre ++ valueBytes w v) = v := by
  subst hk
  exact (extractData_append_right w pre _).trans (extractData_valueBytes h)

/-- The direct address of MTA and ATM is laid out as data that start at byte 1 (R82, R130). -/
theorem extractAddr_eq_extractData (w : Bit) (s : List Byte) :
    extractAddr w s = extractData w 1 s := by
  obtain rfl | rfl := bit_cases w
  · rfl
  · rfl

/-- The address of MTA and ATM is read back from the bytes after the opcode byte. -/
theorem extractAddr_opcode_valueBytes {w : Bit} {addr : Word16} (b0 : Byte)
    (h : valueFits w addr = true) : extractAddr w (b0 :: valueBytes w addr) = addr :=
  (extractAddr_eq_extractData w _).trans (extractData_after (pre := [b0]) h rfl)

/-! ### Displacements (R128) -/

/-- The kinds of displacement that fit `mod` (R76, R77). -/
theorem dispFits_cases {mod : ModField} {disp : Disp} (h : dispFits mod disp = true) :
    (mod = 0 ∧ disp = .noDisp) ∨ (mod = 1 ∧ ∃ v, disp = .disp8 v) ∨
      (mod = 2 ∧ ∃ v, disp = .disp16 v) ∨ (mod = 3 ∧ disp = .noDisp) := by
  unfold dispFits at h
  split at h
  · exact .inl ⟨rfl, rfl⟩
  · exact .inr (.inl ⟨rfl, _, rfl⟩)
  · exact .inr (.inr (.inl ⟨rfl, _, rfl⟩))
  · exact .inr (.inr (.inr ⟨rfl, rfl⟩))
  · cases h

/-- RMR has a direct address exactly where `mod` and `rm` call for one (R71). -/
theorem directFits_iff {mod : ModField} {rm : RegCode} {addr : Option Word16} :
    directFits mod rm addr = true ↔ (addr.isSome = true ↔ mod = 0 ∧ rm = 6) := by
  rw [directFits, beq_iff_eq, Bool.eq_iff_iff, Bool.and_eq_true, beq_iff_eq, beq_iff_eq]

/-- The displacement is read back from the bytes after the mod/r/m byte, and an address besides it
only where the variant has the direct form. -/
theorem extractDisp_dispBytes (v : Variant) {mod : ModField} {disp : Disp} (rm : RegCode)
    (b0 b1 : Byte) (tail : List Byte) (h : dispFits mod disp = true) :
    extractDisp v mod rm (b0 :: b1 :: (dispBytes disp ++ tail)) =
      (disp, if v = .rmr ∧ mod = 0 ∧ rm = 6 then some (word (spanByte tail 0) (spanByte tail 1))
        else none) := by
  obtain ⟨rfl, rfl⟩ | ⟨rfl, v8, rfl⟩ | ⟨rfl, v16, rfl⟩ | ⟨rfl, rfl⟩ := dispFits_cases h
  · rw [extractDisp_mod0]
    simp only [Bool.and_eq_true, beq_iff_eq, true_and]
    split
    · rfl
    · rfl
  · rw [extractDisp_mod1]; simp [dispBytes, spanByte]
  · rw [extractDisp_mod2]; simp [dispBytes, wordBytes, spanByte, word_lo_hi]
  · rw [extractDisp_mod3]; simp

/-- RMR's displacement and direct address are read back together (R128). -/
theorem extractDisp_rmr {mod : ModField} {rm : RegCode} {disp : Disp} {addr : Option Word16}
    (b0 b1 : Byte) (hd : dispFits mod disp = true) (ha : directFits mod rm addr = true) :
    extractDisp .rmr mod rm (b0 :: b1 :: (dispBytes disp ++ directBytes addr)) = (disp, addr) := by
  rw [directFits_iff] at ha
  rw [extractDisp_dispBytes .rmr rm b0 b1 _ hd]
  cases addr with
  | none => simpa using ha
  | some a => simpa [directBytes, wordBytes, spanByte, word_lo_hi] using ha

/-- IRM has no direct form: only its displacement is read (R86, R128). -/
theorem extractDisp_irm {mod : ModField} {disp : Disp} (rm : RegCode) (b0 b1 : Byte)
    (tail : List Byte) (hd : dispFits mod disp = true) :
    extractDisp .irm mod rm (b0 :: b1 :: (dispBytes disp ++ tail)) = (disp, none) := by
  rw [extractDisp_dispBytes .irm rm b0 b1 tail hd, if_neg (fun h => nomatch h.1)]

end Sys2Proof

namespace Sys2Proof.Machine

/-! ### Operands (R160, R81) -/

theorem rmOperand_register {mod : ModField} (w : Bit) (rm : RegCode) (disp : Disp)
    (addr : Option Word16) (h : mod = 3) : rmOperand w mod rm disp addr = .reg (w ++ rm) :=
  if_pos h

theorem rmOperand_direct {mod : ModField} {rm : RegCode} {addr : Option Word16} {a : Word16}
    (w : Bit) (disp : Disp) (h : mod = 0 ∧ rm = 6) (ha : addr = some a) :
    rmOperand w mod rm disp addr = .memDirect a w := by
  obtain ⟨rfl, rfl⟩ := h
  subst ha
  rfl

theorem rmOperand_unresolved {mod : ModField} {rm : RegCode} (w : Bit) (disp : Disp)
    (h : mod = 0 ∧ rm = 6) : rmOperand w mod rm disp none = .unresolved w := by
  obtain ⟨rfl, rfl⟩ := h
  rfl

theorem rmOperand_memory {mod : ModField} {rm : RegCode} (w : Bit) (disp : Disp)
    (addr : Option Word16) (h : mod ≠ 3 ∧ ¬ (mod = 0 ∧ rm = 6)) :
    rmOperand w mod rm disp addr = .memEA rm disp w := by
  obtain ⟨hreg, hdirect⟩ := h
  exact (if_neg hreg).trans (if_neg hdirect)

theorem immWidth_eq_ite (w : Bit) : immWidth w = if w = 0 then .w8 else .w16 := by
  obtain rfl | rfl := bit_cases w
  · rfl
  · rfl

/-! ### The delivered record (R161 to R166, R185) -/

/-- On an accepted span of its own length an instruction writes its record into `RES`, advances
`POS` by that length and responds `OK` with the record (R185). -/
theorem exec_of_accepts {i : Instr} {s : State} {c : Cursor} {n : Nat} (hacc : s.Accepts c n)
    (hlen : (encode i).length = n) :
    exec i s = .next
      { s with
        cursors := s.cursors.set s.sel
          { c with res := some (recordOf i c.pos (decodedOf i)), pos := c.pos + n }
        response := some ⟨.ok, .record (recordOf i c.pos (decodedOf i))⟩ } := by
  obtain ⟨hcur, -, -⟩ := hacc
  subst hlen
  rw [exec_eq_deliver, State.deliver_eq hcur]
  rfl

/-- Settles O13: the record of `decodeRMR` is delivered, and its fields are read back from its own
bytes; the r/m operand is split by the three forms of `mod` and `rm`, the order of the operands by
`d`. -/
theorem rmrDeliversItsRecord : Obligations.RmrDeliversItsRecord := by
  intro d w mod reg rm disp addr s c hwf hacc
  obtain ⟨hdisp, hdirect⟩ := Bool.and_eq_true_iff.1 hwf
  have hlen := encode_length hwf
  have hread : extractDisp .rmr mod rm (encode (.rmr d w mod reg rm disp addr)) = (disp, addr) :=
    extractDisp_rmr _ _ hdisp hdirect
  refine ⟨recordOf _ c.pos (decodedOf (.rmr d w mod reg rm disp addr)),
    rmOperand w mod rm disp addr, exec_of_accepts hacc hlen, rfl, rfl, hlen, rfl, rfl,
    append_append_toNat_div 0b100010#6 d w, extractFields_encode (.rmr d w mod reg rm disp addr),
    hread, rmOperand_register w rm disp addr, ?direct, rmOperand_memory w disp addr,
    rfl, rfl, rfl, rfl, rfl, rfl, rfl, rfl, ?regToRm, ?rmToReg⟩
  case direct =>
    rintro ⟨rfl, rfl⟩
    exact rmOperand_direct w disp ⟨rfl, rfl⟩ (congrArg Prod.snd hread).symm
  case regToRm =>
    rintro rfl
    exact ⟨rfl, rfl⟩
  case rmToReg =>
    rintro rfl
    exact ⟨rfl, rfl⟩

/-- Settles O14: the immediate data stand after the displacement, and the form with `mod = 00` and
`rm = 110` is unresolved, since the span of IRM holds no address. -/
theorem irmDeliversItsRecord : Obligations.IrmDeliversItsRecord := by
  intro w mod reg rm disp data s c hwf hacc
  obtain ⟨hdisp, hdata⟩ := Bool.and_eq_true_iff.1 hwf
  have hlen := encode_length hwf
  have hread :
      extractData w (2 + dispLen mod rm false) (encode (.irm w mod reg rm disp data)) = data :=
    extractData_after (pre := (0b1100011#7 ++ w) :: modRmByte mod reg rm :: dispBytes disp) hdata
      (by rw [List.length_cons, List.length_cons, irm_disp_length (rm := rm) hdisp,
        Nat.add_comm 2])
  rw [← immWidth_eq_ite]
  exact ⟨recordOf _ c.pos (decodedOf (.irm w mod reg rm disp data)), exec_of_accepts hacc hlen,
    rfl, rfl, hlen, rfl, rfl,
    append_toNat_div 0b1100011#7 w, extractFields_encode (.irm w mod reg rm disp data),
    extractDisp_irm rm _ _ _ hdisp, hread, rfl, rfl, rfl, rfl, rfl, rfl, rfl, rfl, rfl,
    rmOperand_register w rm disp none, rmOperand_unresolved w disp, rmOperand_memory w disp none⟩

/-- Settles O15: the register and the data are read back from the record's own bytes. -/
theorem irDeliversItsRecord : Obligations.IrDeliversItsRecord := by
  intro w reg data s c hwf hacc
  have hlen := encode_length hwf
  rw [← immWidth_eq_ite]
  exact ⟨recordOf _ c.pos (decodedOf (.ir w reg data)), exec_of_accepts hacc hlen,
    rfl, rfl, hlen, rfl, rfl,
    append_append_toNat_div 0b1011#4 w reg, extractFields_encode (.ir w reg data),
    extractData_after (pre := [0b1011#4 ++ w ++ reg]) hwf rfl,
    rfl, rfl, rfl, rfl, rfl, rfl, rfl, rfl, rfl, rfl⟩

/-- Settles O16: the direct address is read back from the bytes after the opcode byte. -/
theorem mtaDeliversItsRecord : Obligations.MtaDeliversItsRecord := by
  intro w addr s c hwf hacc
  have hlen := encode_length hwf
  exact ⟨recordOf _ c.pos (decodedOf (.mta w addr)), exec_of_accepts hacc hlen,
    rfl, rfl, hlen, rfl, rfl,
    append_toNat_div 0b1010000#7 w, extractFields_encode (.mta w addr),
    (extractAddr_opcode_valueBytes _ hwf).symm,
    rfl, rfl, rfl, rfl, rfl, rfl, rfl, rfl, rfl, rfl⟩

/-- Settles O17: as for MTA, with the operands the other way round. -/
theorem atmDeliversItsRecord : Obligations.AtmDeliversItsRecord := by
  intro w addr s c hwf hacc
  have hlen := encode_length hwf
  exact ⟨recordOf _ c.pos (decodedOf (.atm w addr)), exec_of_accepts hacc hlen,
    rfl, rfl, hlen, rfl, rfl,
    append_toNat_div 0b1010001#7 w, extractFields_encode (.atm w addr),
    (extractAddr_opcode_valueBytes _ hwf).symm,
    rfl, rfl, rfl, rfl, rfl, rfl, rfl, rfl, rfl, rfl⟩

end Sys2Proof.Machine
end

section
/-! Proofs about the commands of a cursor instance (44_cursor.md) and the registers `READ`
returns. -/

namespace Sys2Proof.Machine

/-! ### Requests -/

/-- A move that leaves the cursor instance as it is changes no register: only the response shows it
(R184, R186). -/
theorem State.request_of_quiet_move {s : State} {r : Request} {c : Cursor} {k : Command}
    {code : RespCode} {p : Payload} (hc : s.cursors[r.cursor]? = some c)
    (hk : r.command = some k) (hm : CursorMove s c k c code p) :
    s.request r = .next ((s.select r.cursor).respond code p) := by
  have hsel : (s.select r.cursor).cursor? = some c := hc
  rw [State.request_of_move hc hk hm, State.setCursor_self hsel]

/-- A `READ` of a register that is no value faults (R31). -/
theorem State.request_read_fault {s : State} {r : Request} {c : Cursor} {index : Nat}
    (hc : s.cursors[r.cursor]? = some c) (hk : r.command = some (.read index))
    (hv : c.readReg index = none) : s.request r = .fault .resNotValid := by
  have hsel : (s.select r.cursor).cursor? = some c := hc
  simp only [State.request_eq, runRequest, hk, hsel, runCommand, cmdRead, hv]

/-! ### The register map (R33) -/

/-- The only registers that are no value are those of `RES` while `RES_VALID = 0` (R31). -/
theorem Cursor.readReg_eq_none_iff {c : Cursor} {index : Nat} :
    c.readReg index = none ↔ 5 ≤ index ∧ index ≤ 13 ∧ c.res = none := by
  unfold Cursor.readReg
  split
  · next hres => rw [Option.map_eq_none_iff, ← and_assoc, and_iff_right hres]
  · next hres =>
    have hno : ¬ (5 ≤ index ∧ index ≤ 13 ∧ c.res = none) :=
      fun ⟨hlo, hhi, _⟩ => hres ⟨hlo, hhi⟩
    split <;> simp [hno]

/-- An index above the map has no register, and reads 0 (R186). -/
theorem Cursor.readReg_of_gt (c : Cursor) {index : Nat} (h : 14 < index) :
    c.readReg index = some 0 := by
  obtain ⟨k, rfl⟩ := Nat.exists_eq_add_of_le' h
  have hres : ¬ (5 ≤ k + 15 ∧ k + 15 ≤ 13) := by omega
  exact if_neg hres

/-! ### `HAS_NEXT` (R184) -/

theorem Cursor.hasNext_eq_decide (c : Cursor) :
    c.hasNext = decide (c.phase = .active ∧ c.pos + 1 < c.endOff) :=
  (Bool.decide_and _ _).symm

/-- Bit 5 of `STATUS` is `HAS_NEXT` (R33). -/
theorem Cursor.statusWord_getLsbD_five (c : Cursor) : c.statusWord.getLsbD 5 = c.hasNext := by
  simp only [Cursor.statusWord, BitVec.getLsbD_append]
  simp

/-! ### The commands (R182 to R186) -/

/-- Settles O27: `RESET` is its move to `Cursor.reset`, and power-on reset maps every cursor
instance there. -/
theorem resetCommandAndPowerOn : Obligations.ResetCommandAndPowerOn := by
  refine ⟨fun s r c hk hc => State.request_of_move hc hk .reset, fun s => ?powerOn, ?resetState⟩
  case powerOn =>
    exact ⟨{ s with cursors := s.cursors.map fun _ => Cursor.reset }, rfl,
      List.map_const', rfl, rfl, State.memRead_congr rfl rfl⟩
  case resetState =>
    rintro c rfl
    exact ⟨rfl, fun index hlo hhi => Cursor.readReg_eq_none_iff.2 ⟨hlo, hhi, rfl⟩⟩

/-- Settles O28: out of range the request is refused, and in range it is the move to
`Cursor.beginPass`. -/
theorem startBeginsAPass : Obligations.StartBeginsAPass := by
  intro s r c base len hk hc
  split
  · next hout => exact State.request_refused (.inr (.inr ⟨base, len, hk, hout⟩))
  · next hin => exact State.request_of_move hc hk (.start base len (Nat.not_lt.1 hin))

/-- Settles O29: the move of `HAS_NEXT` is quiet, and `STATUS` holds the same bit. -/
theorem hasNextAnswersOneBit : Obligations.HasNextAnswersOneBit := by
  intro s r c hk hc
  rw [← Cursor.hasNext_eq_decide]
  exact ⟨State.request_of_quiet_move hc hk .hasNext, c.statusWord, rfl, c.statusWord_getLsbD_five⟩

/-- Settles O30: a register that is a value is answered by the quiet move of `READ`, and
`Cursor.readReg_eq_none_iff` says which ones are not. -/
theorem readReturnsTheRegister : Obligations.ReadReturnsTheRegister := by
  intro s r c index hk hc
  refine ⟨fun hnone => ?noValue, fun hgt => ?noRegister, fun _ hvalid => ?register⟩
  case noValue => exact State.request_read_fault hc hk (Cursor.readReg_eq_none_iff.2 hnone)
  case noRegister =>
    exact State.request_of_quiet_move hc hk (.read index 0 (c.readReg_of_gt hgt))
  case register =>
    obtain ⟨v, hv⟩ := Option.ne_none_iff_exists'.1 (mt Cursor.readReg_eq_none_iff.1 hvalid)
    exact ⟨v, hv, State.request_of_quiet_move hc hk (.read index v hv)⟩

end Sys2Proof.Machine
end

section
/-! Proofs about the renderer (45_render_contract.md). -/

namespace Sys2Proof.Machine

/-- An operand has no text exactly when it is `Unresolved` (R201 to R206). -/
theorem Operand.text_eq_error_iff {signed : Bool} {variant : Variant} {o : Operand} :
    (∃ e, o.text signed variant = .error e) ↔ ∃ w, o = .unresolved w := by
  constructor
  · rintro ⟨e, he⟩
    cases o with
    | unresolved w => exact ⟨w, rfl⟩
    | reg | memEA | memDirect | imm => cases he
  · rintro ⟨w, rfl⟩
    exact ⟨.unresolvedOperand, rfl⟩

/-- A record has no text exactly when one of its operands has none (R200). -/
theorem Record.render_eq_error_iff {signed : Bool} {r : Record} :
    (∃ e, r.render signed = .error e) ↔
      (∃ e, r.dst.text signed r.variant = .error e) ∨
        ∃ e, r.src.text signed r.variant = .error e := by
  unfold Record.render
  cases r.dst.text signed r.variant with
  | error e => exact iff_of_true ⟨e, rfl⟩ (.inl ⟨e, rfl⟩)
  | ok dst =>
    cases r.src.text signed r.variant with
    | error e => exact iff_of_true ⟨e, rfl⟩ (.inr ⟨e, rfl⟩)
    | ok src => simp

/-- Settles O20: a record fails with one of its operands, and an operand fails when it is
`Unresolved`. -/
theorem rendererFailsOnUnresolved : Obligations.RendererFailsOnUnresolved := by
  intro signed r
  rw [Record.render_eq_error_iff, Operand.text_eq_error_iff, Operand.text_eq_error_iff]

end Sys2Proof.Machine
end

section
/-! Proofs about the exceptions (60_exceptions.md): what raises each, what it records, and how a
stopped cursor instance is left. -/

namespace Sys2Proof

/-- Byte 0 is unrecognized exactly when no entry of the prefix table matches it (R141). -/
theorem matchPrefix_eq_none_iff {b0 : Byte} :
    matchPrefix b0 = none ↔ ∀ e ∈ prefixTable, b0 &&& e.mask ≠ e.value := by
  simp [matchPrefix, PrefixEntry.hits]

/-- Byte 1 does not matter to whether an opcode is recognized (R144). -/
theorem classify_eq_none_iff {b0 b1 : Byte} : classify b0 b1 = none ↔ matchPrefix b0 = none :=
  Option.map_eq_none_iff

end Sys2Proof

namespace Sys2Proof.Machine

/-! ### Which commands respond with an error -/

/-- Of the moves of a cursor instance only those of `NEXT` respond with another code than `OK`. -/
theorem CursorMove.command_eq_next {s : State} {c c' : Cursor} {k : Command} {code : RespCode}
    {p : Payload} (hm : CursorMove s c k c' code p) (hcode : code ≠ .ok) : k = .next := by
  cases hm with
  | reset | start | hasNext | read => exact absurd rfl hcode
  | idle | ended | faulted | endOfStream | unrecognized | truncated | accepted => rfl

/-- A response other than `OK` and `BAD_RANGE` answers a `NEXT` (R182 to R186, R225). -/
theorem State.request_command_eq_next {s t : State} {r : Request} {code : RespCode} {p : Payload}
    (h : s.request r = .next t) (hresp : t.response = some ⟨code, p⟩) (hok : code ≠ .ok)
    (hrange : code ≠ .badRange) : r.command = some .next := by
  obtain ⟨-, rfl⟩ | ⟨c, k, c', code', p', -, hk, hm, rfl⟩ := State.request_cases h
  · cases hresp
    exact absurd rfl hrange
  · cases hresp
    rw [hk, hm.command_eq_next hok]

/-- The response that reports a stored error has the error's code plus 1 (R185). -/
theorem respCode_errResponse (e : ErrCode) :
    (respCode (errResponse e)).toNat = (errCode e).toNat + 1 := by
  cases e <;> rfl

/-! ### The causes (R221 to R225) -/

/-- Settles O35: byte 1 of the pass lies in the buffer, so both bytes are peeked, and `classify`
knows no variant for byte 0. -/
theorem nextAtAnUnrecognizedOpcode : Obligations.NextAtAnUnrecognizedOpcode := by
  refine ⟨?cause, fun s t r p h hresp => State.request_command_eq_next h hresp nofun nofun⟩
  intro s r c b0 hk hc hphase hpos hcap h0 hno
  obtain ⟨b1, h1⟩ := State.memRead_eq_some (Nat.lt_of_lt_of_le hpos hcap)
  have hclass : classify b0 b1 = none :=
    classify_eq_none_iff.2 (matchPrefix_eq_none_iff.2 hno)
  exact State.request_of_move hc hk (.unrecognized b0 b1 hphase hpos h0 h1 hclass)

/-- Settles O36: the move of a `NEXT` whose span runs past the end of the pass. -/
theorem nextAtATruncatedInstruction : Obligations.NextAtATruncatedInstruction := by
  refine ⟨?cause, fun s t r p h hresp => State.request_command_eq_next h hresp nofun nofun⟩
  intro s r c b0 b1 v len hk hc hphase hpos h0 h1 hclass hlen
  exact State.request_of_move hc hk (.truncated b0 b1 v len hphase hpos h0 h1 hclass hlen)

/-- Settles O34: the move of a `NEXT` with fewer than two bytes left. -/
theorem nextAtTheEnd : Obligations.NextAtTheEnd := by
  intro s r c hk hc hphase hend
  exact State.request_of_move hc hk (.endOfStream hphase (Nat.not_lt.2 hend))

/-- Settles O37: each of the three cases is a cause of refusal. -/
theorem badRangeChangesNothing : Obligations.BadRangeChangesNothing := by
  rintro s r (hcursor | hcode | ⟨base, len, hk, hout⟩)
  · exact State.request_refused (.inr (.inl (List.getElem?_eq_none hcursor)))
  · exact State.request_refused (.inl hcode)
  · exact State.request_refused (.inr (.inr ⟨base, len, hk, hout⟩))

/-! ### The ways out of `FAULTED` and `ENDED` (R228) -/

/-- What the next state of a move shows: its response, and the named cursor instance. -/
theorem State.request_move_result {s t : State} {r : Request} {c c' : Cursor} {k : Command}
    {code : RespCode} {p : Payload} (hc : s.cursors[r.cursor]? = some c)
    (hk : r.command = some k) (hm : CursorMove s c k c' code p) (h : s.request r = .next t) :
    t.response = some ⟨code, p⟩ ∧ t.cursors[r.cursor]? = some c' := by
  obtain rfl := Host.Outcome.next.inj ((State.request_of_move hc hk hm).symm.trans h)
  exact ⟨rfl, State.setCursor_named (s := s.select r.cursor) hc⟩

/-- Outside `ACTIVE` a move that is neither `RESET` nor `START` at most drops the result. -/
theorem CursorMove.eq_or_dropResult {s : State} {c c' : Cursor} {k : Command} {code : RespCode}
    {p : Payload} (hm : CursorMove s c k c' code p) (hphase : c.phase ≠ .active)
    (hstart : ∀ base len : Nat, k ≠ .start base len) (hreset : k ≠ .reset) :
    c' = c ∨ c' = c.dropResult := by
  cases hm with
  | reset => exact absurd rfl hreset
  | start base len => exact absurd rfl (hstart base len)
  | hasNext | read | idle => exact .inl rfl
  | ended | faulted => exact .inr rfl
  | endOfStream h | unrecognized _ _ h | truncated _ _ _ _ h | accepted _ _ _ _ _ h =>
    exact absurd h hphase

/-- Outside `ACTIVE` a request that is neither `RESET` nor `START` at most drops the result of the
cursor instance it names. -/
theorem State.request_eq_or_dropResult {s t : State} {r : Request} {c c' : Cursor}
    (h : s.request r = .next t) (hc : s.cursors[r.cursor]? = some c)
    (hc' : t.cursors[r.cursor]? = some c') (hphase : c.phase ≠ .active)
    (hstart : ∀ base len : Nat, r.command ≠ some (.start base len))
    (hreset : r.command ≠ some .reset) : c' = c ∨ c' = c.dropResult := by
  obtain ⟨-, rfl⟩ | ⟨c₀, k, c₁, code, p, hc₀, hk, hm, -⟩ := State.request_cases h
  · exact .inl (Option.some.inj (hc'.symm.trans hc))
  · obtain rfl := Option.some.inj (hc₀.symm.trans hc)
    obtain rfl := Option.some.inj ((State.request_move_result hc hk hm h).2.symm.trans hc')
    exact hm.eq_or_dropResult hphase (fun base len hkd => hstart base len (hkd ▸ hk))
      fun hkd => hreset (hkd ▸ hk)

theorem Cursor.hasNext_of_not_active {c : Cursor} (h : c.phase ≠ .active) : c.hasNext = false := by
  simp [Cursor.hasNext_eq_decide, h]

theorem Cursor.dropResult_of_res_none {c : Cursor} (h : c.res = none) : c.dropResult = c := by
  rw [Cursor.dropResult, ← h]

/-- Settles O38: a stopped cursor instance at most drops its result, a `NEXT` in `FAULTED` repeats
the stored error, and the moves of `START` and `RESET` end at `Cursor.beginPass` and
`Cursor.reset`. -/
theorem onlyStartOrResetLeavesAnError : Obligations.OnlyStartOrResetLeavesAnError := by
  intro s t r c c' hc hstopped h hc'
  have hphase : c.phase ≠ .active := by
    rcases hstopped with hp | hp <;> simp [hp]
  refine ⟨fun hstart hreset => ?sticky, fun hk hfaulted _ => ?again, fun base len hk hin => ?start,
    fun hk => ?reset⟩
  case sticky =>
    obtain rfl | rfl := State.request_eq_or_dropResult h hc hc' hphase hstart hreset
    · exact ⟨rfl, fun _ => rfl, Cursor.hasNext_of_not_active hphase⟩
    · exact ⟨rfl, Cursor.dropResult_of_res_none, Cursor.hasNext_of_not_active hphase⟩
  case again =>
    obtain ⟨hresp, -⟩ := State.request_move_result hc hk (.faulted _ hfaulted rfl) h
    exact ⟨errResponse c.err, hresp, respCode_errResponse c.err⟩
  case start =>
    obtain ⟨-, hnamed⟩ := State.request_move_result hc hk (.start base len hin) h
    obtain rfl := Option.some.inj (hnamed.symm.trans hc')
    exact ⟨rfl, rfl⟩
  case reset =>
    obtain ⟨-, hnamed⟩ := State.request_move_result hc hk .reset h
    obtain rfl := Option.some.inj (hnamed.symm.trans hc')
    exact ⟨rfl, rfl⟩

end Sys2Proof.Machine
end

section
/-! Proofs about the classifier and the round trip between bytes and instructions (30_encoding.md,
41_field_decoder.md, 42_classifier.md). A span is a byte string that `classify` gives its own length
(`IsSpan`); the spans are exactly the encodings of the well-formed instructions. -/

namespace Sys2Proof

/-! ### The opcode of each variant (R84, R140) -/

theorem matchPrefix_eq_rmr_iff {b0 : Byte} : matchPrefix b0 = some .rmr ↔ b0.toNat / 4 = 0x22 := by
  revert b0
  decide

theorem matchPrefix_eq_mta_iff {b0 : Byte} : matchPrefix b0 = some .mta ↔ b0.toNat / 2 = 0x50 := by
  revert b0
  decide

theorem matchPrefix_eq_atm_iff {b0 : Byte} : matchPrefix b0 = some .atm ↔ b0.toNat / 2 = 0x51 := by
  revert b0
  decide

theorem matchPrefix_eq_irm_iff {b0 : Byte} : matchPrefix b0 = some .irm ↔ b0.toNat / 2 = 0x63 := by
  revert b0
  decide

theorem matchPrefix_eq_ir_iff {b0 : Byte} : matchPrefix b0 = some .ir ↔ b0.toNat / 16 = 0xB := by
  revert b0
  decide

/-- Byte 0 of an encoding has the opcode of the instruction's variant. -/
theorem matchPrefix_encode (i : Instr) : matchPrefix (spanByte (encode i) 0) = some i.variant := by
  cases i with
  | rmr d w => exact matchPrefix_eq_rmr_iff.2 (append_append_toNat_div 0b100010#6 d w)
  | mta w => exact matchPrefix_eq_mta_iff.2 (append_toNat_div 0b1010000#7 w)
  | atm w => exact matchPrefix_eq_atm_iff.2 (append_toNat_div 0b1010001#7 w)
  | irm w => exact matchPrefix_eq_irm_iff.2 (append_toNat_div 0b1100011#7 w)
  | ir w reg => exact matchPrefix_eq_ir_iff.2 (append_append_toNat_div 0b1011#4 w reg)

/-! ### Putting a byte together from its fields -/

/-- The high field of a bit string is the quotient by the weight of the bits below it. -/
theorem extractLsb'_eq_of_div {w l n : Nat} {x : BitVec l} {b : BitVec w}
    (h : b.toNat / 2 ^ n = x.toNat) : b.extractLsb' n l = x := by
  apply BitVec.eq_of_toNat_eq
  rw [BitVec.extractLsb'_toNat, Nat.shiftRight_eq_div_pow, h, Nat.mod_eq_of_lt x.isLt]

/-- A bit string is its three fields, side by side. -/
theorem extractLsb'_fields {l m n : Nat} (b : BitVec (l + m + n)) :
    b.extractLsb' (m + n) l ++ b.extractLsb' n m ++ b.extractLsb' 0 n = b := by
  rw [BitVec.extractLsb'_append_extractLsb'_eq_extractLsb' (Nat.add_comm m n),
    BitVec.extractLsb'_append_extractLsb'_eq_extractLsb' (Nat.zero_add n).symm,
    BitVec.extractLsb'_eq_self]

theorem rmrOpcode_extract {b0 : Byte} (h : matchPrefix b0 = some .rmr) :
    0b100010#6 ++ b0.extractLsb' 1 1 ++ b0.extractLsb' 0 1 = b0 := by
  rw [← extractLsb'_eq_of_div (n := 2) (x := 0b100010#6) (matchPrefix_eq_rmr_iff.1 h)]
  exact extractLsb'_fields (l := 6) (m := 1) (n := 1) b0

theorem irOpcode_extract {b0 : Byte} (h : matchPrefix b0 = some .ir) :
    0b1011#4 ++ b0.extractLsb' 3 1 ++ b0.extractLsb' 0 3 = b0 := by
  rw [← extractLsb'_eq_of_div (n := 4) (x := 0b1011#4) (matchPrefix_eq_ir_iff.1 h)]
  exact extractLsb'_fields (l := 4) (m := 1) (n := 3) b0

theorem modRmByte_extract (b1 : Byte) :
    modRmByte (b1.extractLsb' 6 2) (b1.extractLsb' 3 3) (b1.extractLsb' 0 3) = b1 :=
  extractLsb'_fields (l := 2) (m := 3) (n := 3) b1

/-! ### Opcodes of MTA, ATM and IRM -/

/-- A byte whose bits 7:1 are a 7-bit opcode is that opcode and the word flag. -/
theorem opcode_append_w {opcode : BitVec 7} {b0 : Byte} (h : b0.toNat / 2 = opcode.toNat) :
    opcode ++ b0.extractLsb' 0 1 = b0 := by
  rw [← extractLsb'_eq_of_div (n := 1) h,
    BitVec.extractLsb'_append_extractLsb'_eq_extractLsb' (Nat.zero_add 1).symm,
    BitVec.extractLsb'_eq_self]

/-! ### Spans -/

/-- The bytes are one whole span: `classify` gives their first two the variant `v` and their own
number as the length (R144). -/
def IsSpan (v : Variant) (span : List Byte) : Prop :=
  classify (spanByte span 0) (spanByte span 1) = some (v, span.length)

theorem isSpan_iff {v : Variant} {span : List Byte} :
    IsSpan v span ↔ matchPrefix (spanByte span 0) = some v ∧
      instrLen (extractFields v (spanByte span 0) (spanByte span 1)) = span.length := by
  simp [IsSpan, classify]

theorem IsSpan.two_le {v : Variant} {span : List Byte} (h : IsSpan v span) : 2 ≤ span.length :=
  (classify_len_bounds h).1

/-- A span has the two bytes that `classify` peeks, and as many more as their fields call for. -/
theorem IsSpan.exists_cons {v : Variant} {span : List Byte} (h : IsSpan v span) :
    ∃ b0 b1 tail, span = b0 :: b1 :: tail ∧ matchPrefix b0 = some v ∧
      instrLen (extractFields v b0 b1) = tail.length + 2 := by
  match span, h.two_le, isSpan_iff.1 h with
  | b0 :: b1 :: tail, _, ⟨hv, hlen⟩ => exact ⟨b0, b1, tail, rfl, hv, hlen⟩

/-- An encoding is a span. -/
theorem isSpan_encode {i : Instr} (h : i.wellFormed = true) : IsSpan i.variant (encode i) := by
  rw [isSpan_iff, extractFields_encode, encode_length h]
  exact ⟨matchPrefix_encode i, rfl⟩

/-! ### Decoding an encoding -/

theorem spanByte_append_left {k : Nat} {pre : List Byte} (more : List Byte) (h : k < pre.length) :
    spanByte (pre ++ more) k = spanByte pre k := by
  rw [spanByte, spanByte, List.getD_eq_getElem?_getD, List.getD_eq_getElem?_getD,
    List.getElem?_append_left h]

/-- The value after a prefix of `k` bytes is read back whatever follows it. -/
theorem extractData_after_append {w : Bit} {v : Word16} {k : Nat} {pre : List Byte}
    (more : List Byte) (h : valueFits w v = true) (hk : pre.length = k) :
    extractData w k (pre ++ (valueBytes w v ++ more)) = v := by
  subst hk
  rw [extractData_append_right]
  obtain rfl | rfl := bit_cases w
  · exact zext16_loByte v (of_decide_eq_true h)
  · exact word_lo_hi v

/-- RMR's displacement and direct address are read back whatever follows them. -/
theorem extractDisp_rmr_append {mod : ModField} {rm : RegCode} {disp : Disp} {addr : Option Word16}
    (b0 b1 : Byte) (more : List Byte) (hd : dispFits mod disp = true)
    (ha : directFits mod rm addr = true) :
    extractDisp .rmr mod rm (b0 :: b1 :: (dispBytes disp ++ (directBytes addr ++ more))) =
      (disp, addr) := by
  rw [directFits_iff] at ha
  rw [extractDisp_dispBytes .rmr rm b0 b1 _ hd]
  cases addr with
  | none => simpa using ha
  | some a => simpa [directBytes, wordBytes, spanByte, word_lo_hi] using ha

/-- An instruction is decoded from its encoding, whatever follows it (R131). -/
theorem decodeSpan_encode_append {i : Instr} (more : List Byte) (h : i.wellFormed = true) :
    decodeSpan i.variant (encode i ++ more) = i := by
  have hlen := (isSpan_encode h).two_le
  have hfields : extractFields i.variant (spanByte (encode i ++ more) 0)
      (spanByte (encode i ++ more) 1) = i.fields := by
    rw [spanByte_append_left more (by omega), spanByte_append_left more (by omega),
      extractFields_encode]
  rw [decodeSpan, hfields]
  cases i with
  | rmr d w mod reg rm disp addr =>
    obtain ⟨hdisp, haddr⟩ := Bool.and_eq_true_iff.1 h
    simp only [Instr.fields, encode, List.cons_append, List.append_assoc,
      extractDisp_rmr_append _ _ more hdisp haddr]
  | irm w mod reg rm disp data =>
    obtain ⟨hdisp, hdata⟩ := Bool.and_eq_true_iff.1 h
    have hread := extractData_after_append more hdata
      (pre := (0b1100011#7 ++ w) :: modRmByte mod reg rm :: dispBytes disp)
      (k := 2 + dispLen mod rm false)
      (by rw [List.length_cons, List.length_cons, irm_disp_length (rm := rm) hdisp,
        Nat.add_comm 2])
    simp only [List.cons_append] at hread
    simp only [Instr.fields, encode, List.cons_append, List.append_assoc,
      extractDisp_irm rm _ _ _ hdisp, hread]
  | ir w reg data =>
    exact congrArg (Instr.ir w reg) (extractData_after_append (pre := [_]) more h rfl)
  | mta w addr =>
    exact congrArg (Instr.mta w) ((extractAddr_eq_extractData w _).trans
      (extractData_after_append (pre := [_]) more h rfl))
  | atm w addr =>
    exact congrArg (Instr.atm w) ((extractAddr_eq_extractData w _).trans
      (extractData_after_append (pre := [_]) more h rfl))

theorem decodeSpan_encode {i : Instr} (h : i.wellFormed = true) :
    decodeSpan i.variant (encode i) = i := by
  simpa using decodeSpan_encode_append [] h

/-- `decode` takes a span off the front (R227). -/
theorem IsSpan.decode_append {v : Variant} {span : List Byte} (h : IsSpan v span)
    (rest : List Byte) : decode (span ++ rest) = .ok (decodeSpan v span, rest) := by
  obtain ⟨b0, b1, tail, rfl, -, -⟩ := h.exists_cons
  have hclass : classify b0 b1 = some (v, (b0 :: b1 :: tail).length) := h
  simp [decode, hclass]

/-- Settles O1: an encoding is a span, and its instruction is read back field by field. -/
theorem decodeOfEncode : Obligations.DecodeOfEncode := by
  intro i rest h
  rw [(isSpan_encode h).decode_append rest, decodeSpan_encode h]

/-! ### Encoding what a span decodes to -/

theorem wordBytes_word (lo hi : Byte) : wordBytes (word lo hi) = [lo, hi] := by
  rw [wordBytes, loByte_word, hiByte_word]

/-- Extracted data fit the width they were extracted at. -/
theorem valueFits_extractData (w : Bit) (k : Nat) (s : List Byte) :
    valueFits w (extractData w k s) = true := by
  obtain rfl | rfl := bit_cases w
  · exact decide_eq_true (zext16_toNat_lt _)
  · rfl

/-- The bytes of the value at the front of as many bytes as the value takes are those bytes. -/
theorem valueBytes_extractData {w : Bit} {tail : List Byte} (h : tail.length = 1 + w.toNat) :
    valueBytes w (extractData w 0 tail) = tail := by
  obtain rfl | rfl := bit_cases w
  · obtain ⟨x, rfl⟩ := List.length_eq_one_iff.1 h
    exact congrArg (fun y => [y]) (loByte_zext16 x)
  · obtain ⟨x, y, rfl⟩ := List.length_eq_two.1 h
    exact wordBytes_word x y

/-- The same after a prefix of `k` bytes. -/
theorem valueBytes_extractData_after {w : Bit} {k : Nat} {pre tail : List Byte}
    (hk : pre.length = k) (h : tail.length = 1 + w.toNat) :
    valueBytes w (extractData w k (pre ++ tail)) = tail := by
  subst hk
  rw [extractData_append_right, valueBytes_extractData h]

/-- The same after one byte. -/
theorem valueBytes_extractData_cons {w : Bit} {tail : List Byte} (b0 : Byte)
    (h : tail.length = 1 + w.toNat) : valueBytes w (extractData w 1 (b0 :: tail)) = tail :=
  valueBytes_extractData_after (pre := [b0]) rfl h

theorem valueBytes_extractAddr_cons {w : Bit} {tail : List Byte} (b0 : Byte)
    (h : tail.length = 1 + w.toNat) : valueBytes w (extractAddr w (b0 :: tail)) = tail := by
  rw [extractAddr_eq_extractData, valueBytes_extractData_cons b0 h]

theorem dispFits_extractDisp (v : Variant) (mod : ModField) (rm : RegCode) (s : List Byte) :
    dispFits mod (extractDisp v mod rm s).1 = true := by
  obtain rfl | rfl | rfl | rfl := mod_cases mod
  · rw [extractDisp_mod0]
    split <;> rfl
  · rfl
  · rfl
  · rfl

/-- RMR's extraction gives a direct address exactly where the form has one. -/
theorem directFits_extractDisp (mod : ModField) (rm : RegCode) (s : List Byte) :
    directFits mod rm (extractDisp .rmr mod rm s).2 = true := by
  obtain rfl | rfl | rfl | rfl := mod_cases mod
  · rw [extractDisp_mod0]
    split
    · next hrm => simpa [directFits] using hrm
    · next hrm => simpa [directFits] using hrm
  · rfl
  · rfl
  · rfl

/-- The bytes of RMR's displacement and address are the bytes they were extracted from. -/
theorem dispBytes_directBytes_extractDisp {mod : ModField} {rm : RegCode} {tail : List Byte}
    (b0 b1 : Byte) (h : tail.length = dispLen mod rm true) :
    dispBytes (extractDisp .rmr mod rm (b0 :: b1 :: tail)).1 ++
      directBytes (extractDisp .rmr mod rm (b0 :: b1 :: tail)).2 = tail := by
  obtain rfl | rfl | rfl | rfl := mod_cases mod
  · by_cases hrm : rm = 6
    · subst hrm
      obtain ⟨x, y, rfl⟩ := List.length_eq_two.1 h
      exact wordBytes_word x y
    · rw [dispLen_mod0, if_neg (by simpa using hrm)] at h
      obtain rfl := List.eq_nil_of_length_eq_zero h
      rw [extractDisp_mod0, if_neg (by simpa using hrm)]
      rfl
  · obtain ⟨x, rfl⟩ := List.length_eq_one_iff.1 h
    rfl
  · obtain ⟨x, y, rfl⟩ := List.length_eq_two.1 h
    exact (List.append_nil _).trans (wordBytes_word x y)
  · obtain rfl := List.eq_nil_of_length_eq_zero h
    rfl

/-- The bytes of a displacement are the bytes it was extracted from, whatever follows them. -/
theorem dispBytes_extractDisp_irm {mod : ModField} {rm : RegCode} {pre : List Byte}
    (b0 b1 : Byte) (more : List Byte) (h : pre.length = dispLen mod rm false) :
    dispBytes (extractDisp .irm mod rm (b0 :: b1 :: (pre ++ more))).1 = pre := by
  obtain rfl | rfl | rfl | rfl := mod_cases mod
  · obtain rfl := List.eq_nil_of_length_eq_zero h
    rfl
  · obtain ⟨x, rfl⟩ := List.length_eq_one_iff.1 h
    rfl
  · obtain ⟨x, y, rfl⟩ := List.length_eq_two.1 h
    exact wordBytes_word x y
  · obtain rfl := List.eq_nil_of_length_eq_zero h
    rfl

/-- A span decodes to an instruction of its own variant. -/
theorem decodeSpan_variant (v : Variant) (s : List Byte) : (decodeSpan v s).variant = v := by
  cases v <;> rfl

/-- A span decodes to a well-formed instruction (R71 to R83). -/
theorem decodeSpan_wellFormed (v : Variant) (s : List Byte) :
    (decodeSpan v s).wellFormed = true := by
  cases v with
  | rmr =>
    exact Bool.and_eq_true_iff.2 ⟨dispFits_extractDisp .., directFits_extractDisp ..⟩
  | irm => exact Bool.and_eq_true_iff.2 ⟨dispFits_extractDisp .., valueFits_extractData ..⟩
  | ir => exact valueFits_extractData ..
  | mta =>
    exact (congrArg (valueFits _) (extractAddr_eq_extractData ..)).trans
      (valueFits_extractData ..)
  | atm =>
    exact (congrArg (valueFits _) (extractAddr_eq_extractData ..)).trans
      (valueFits_extractData ..)

/-- In the variants without a mod/r/m byte the value takes all bytes after the first. -/
theorem valueLength_of_two_add {n k : Nat} (h : 2 + k = n + 2) : n + 1 = 1 + k := by
  omega

/-- A span is the encoding of the instruction it decodes to: no bit is dropped. -/
theorem IsSpan.encode_decodeSpan {v : Variant} {span : List Byte} (h : IsSpan v span) :
    encode (decodeSpan v span) = span := by
  obtain ⟨b0, b1, tail, rfl, hv, hlen⟩ := h.exists_cons
  cases v with
  | rmr =>
    have htail : tail.length = dispLen (b1.extractLsb' 6 2) (b1.extractLsb' 0 3) true := by
      simp only [extractFields, instrLen] at hlen
      omega
    show (0b100010#6 ++ b0.extractLsb' 1 1 ++ b0.extractLsb' 0 1) ::
      modRmByte (b1.extractLsb' 6 2) (b1.extractLsb' 3 3) (b1.extractLsb' 0 3) ::
        (dispBytes (extractDisp .rmr (b1.extractLsb' 6 2) (b1.extractLsb' 0 3) _).1 ++
          directBytes (extractDisp .rmr (b1.extractLsb' 6 2) (b1.extractLsb' 0 3) _).2) = _
    rw [rmrOpcode_extract hv, modRmByte_extract, dispBytes_directBytes_extractDisp b0 b1 htail]
  | irm =>
    simp only [extractFields, instrLen] at hlen
    obtain ⟨pre, data, rfl, hpre⟩ : ∃ pre data, tail = pre ++ data ∧
        pre.length = dispLen (b1.extractLsb' 6 2) (b1.extractLsb' 0 3) false :=
      ⟨_, _, (List.take_append_drop _ tail).symm, List.length_take_of_le (by omega)⟩
    have hdata : data.length = 1 + (b0.extractLsb' 0 1).toNat := by
      rw [List.length_append] at hlen
      omega
    show (0b1100011#7 ++ b0.extractLsb' 0 1) ::
      modRmByte (b1.extractLsb' 6 2) (b1.extractLsb' 3 3) (b1.extractLsb' 0 3) ::
        (dispBytes (extractDisp .irm (b1.extractLsb' 6 2) (b1.extractLsb' 0 3) _).1 ++
          valueBytes (b0.extractLsb' 0 1) (extractData (b0.extractLsb' 0 1)
            (2 + dispLen (b1.extractLsb' 6 2) (b1.extractLsb' 0 3) false)
            (b0 :: b1 :: pre ++ data))) = _
    rw [opcode_append_w (matchPrefix_eq_irm_iff.1 hv), modRmByte_extract,
      dispBytes_extractDisp_irm b0 b1 data hpre, valueBytes_extractData_after ?_ hdata]
    rw [List.length_cons, List.length_cons, hpre, Nat.add_comm 2]
  | ir =>
    have htail : (b1 :: tail).length = 1 + (b0.extractLsb' 3 1).toNat := valueLength_of_two_add hlen
    show (0b1011#4 ++ b0.extractLsb' 3 1 ++ b0.extractLsb' 0 3) ::
      valueBytes (b0.extractLsb' 3 1) (extractData (b0.extractLsb' 3 1) 1 _) = _
    rw [irOpcode_extract hv, valueBytes_extractData_cons b0 htail]
  | mta =>
    have htail : (b1 :: tail).length = 1 + (b0.extractLsb' 0 1).toNat := valueLength_of_two_add hlen
    show (0b1010000#7 ++ b0.extractLsb' 0 1) ::
      valueBytes (b0.extractLsb' 0 1) (extractAddr (b0.extractLsb' 0 1) _) = _
    rw [opcode_append_w (matchPrefix_eq_mta_iff.1 hv), valueBytes_extractAddr_cons b0 htail]
  | atm =>
    have htail : (b1 :: tail).length = 1 + (b0.extractLsb' 0 1).toNat := valueLength_of_two_add hlen
    show (0b1010001#7 ++ b0.extractLsb' 0 1) ::
      valueBytes (b0.extractLsb' 0 1) (extractAddr (b0.extractLsb' 0 1) _) = _
    rw [opcode_append_w (matchPrefix_eq_atm_iff.1 hv), valueBytes_extractAddr_cons b0 htail]

/-- The spans are the encodings of the well-formed instructions. -/
theorem isSpan_iff_encode {v : Variant} {span : List Byte} :
    IsSpan v span ↔ ∃ i : Instr, i.wellFormed = true ∧ i.variant = v ∧ encode i = span := by
  constructor
  · intro h
    exact ⟨decodeSpan v span, decodeSpan_wellFormed v span, decodeSpan_variant v span,
      h.encode_decodeSpan⟩
  · rintro ⟨i, hwf, rfl, rfl⟩
    exact isSpan_encode hwf

/-- What decodes is a span and the bytes after it. -/
theorem decode_eq_ok_iff {bytes rest : List Byte} {i : Instr} :
    decode bytes = .ok (i, rest) ↔
      ∃ v span, IsSpan v span ∧ bytes = span ++ rest ∧ i = decodeSpan v span := by
  constructor
  · intro h
    unfold decode at h
    split at h
    · next b0 b1 tail =>
      split at h
      · cases h
      · next v len hclass =>
        split at h
        · cases h
        · next hlen =>
          obtain ⟨rfl, rfl⟩ := Prod.mk.inj (Except.ok.inj h)
          have htake : ((b0 :: b1 :: tail).take len).length = len :=
            List.length_take_of_le (Nat.not_lt.1 hlen)
          refine ⟨v, (b0 :: b1 :: tail).take len, ?_, (List.take_append_drop ..).symm, rfl⟩
          obtain ⟨k, rfl⟩ := Nat.exists_eq_add_of_le' (classify_len_bounds hclass).1
          rw [IsSpan, htake]
          exact hclass
    · cases h
  · rintro ⟨v, span, hspan, rfl, rfl⟩
    exact hspan.decode_append rest

/-- Settles O2: what decodes is a span, and a span is the encoding of what it decodes to. -/
theorem decodedBytesAreTheEncoding : Obligations.DecodedBytesAreTheEncoding := by
  intro bytes i rest h
  obtain ⟨v, span, hspan, rfl, rfl⟩ := decode_eq_ok_iff.1 h
  exact ⟨decodeSpan_wellFormed v span, by rw [hspan.encode_decodeSpan]⟩

end Sys2Proof
end

section
/-! Proofs about the commands of different cursor instances, and about the span a `NEXT` accepts
(10_state.md R37, 20_memory.md R57, 44_cursor.md R185, R189). -/

namespace Sys2Proof.Machine

/-! ### What a move depends on -/

/-- A move of a cursor instance depends on the capacity and on the bytes from `POS` to `END`
alone. -/
theorem CursorMove.congr {s t : State} {c c' : Cursor} {k : Command} {code : RespCode} {p : Payload}
    (hcap : t.bufCap = s.bufCap)
    (hread : ∀ a, c.pos ≤ a → a < c.endOff → t.memRead a = s.memRead a)
    (hm : CursorMove s c k c' code p) : CursorMove t c k c' code p := by
  cases hm with
  | reset => exact .reset
  | start base len h => exact .start base len (hcap ▸ h)
  | hasNext => exact .hasNext
  | read index v h => exact .read index v h
  | idle h => exact .idle h
  | ended h => exact .ended h
  | faulted code h hc => exact .faulted code h hc
  | endOfStream h hp => exact .endOfStream h hp
  | unrecognized b0 b1 h hp h0 h1 hc =>
    exact .unrecognized b0 b1 h hp ((hread _ (by omega) (by omega)).trans h0)
      ((hread _ (by omega) hp).trans h1) hc
  | truncated b0 b1 v len h hp h0 h1 hc hl =>
    exact .truncated b0 b1 v len h hp ((hread _ (by omega) (by omega)).trans h0)
      ((hread _ (by omega) hp).trans h1) hc hl
  | accepted b0 b1 v len span h hp h0 h1 hc hl hs =>
    refine .accepted b0 b1 v len span h hp ((hread _ (by omega) (by omega)).trans h0)
      ((hread _ (by omega) hp).trans h1) hc hl ((State.slice_congr fun a ha hb => ?_).trans hs)
    exact hread a ha (by omega)

/-- A refusal depends on the capacity and on there being the cursor instance. -/
theorem State.Refuses.congr {s t : State} {r : Request} (hcap : t.bufCap = s.bufCap)
    (hcur : t.cursors[r.cursor]? = s.cursors[r.cursor]?) (h : s.Refuses r) : t.Refuses r := by
  rw [State.Refuses, hcap, hcur]
  exact h

/-! ### Commands of different cursor instances (R37, R189) -/

/-- The frame of a request: the other cursor instances, their number and the later moves. -/
theorem State.request_others {s t : State} {r : Request} (h : s.request r = .next t) :
    t.cursors.length = s.cursors.length ∧ t.pending = s.pending ∧
    (∀ j : Nat, j ≠ r.cursor → t.cursors[j]? = s.cursors[j]?) ∧
    ∃ resp : Response, t.response = some resp := by
  obtain ⟨-, rfl⟩ | ⟨c, k, c', code, p, -, -, -, rfl⟩ := State.request_cases h
  · exact ⟨rfl, rfl, fun _ _ => rfl, _, rfl⟩
  · exact ⟨by simp, rfl, fun j hj => State.setCursor_other (s := s.select r.cursor) hj, _, rfl⟩

/-- Settles O41: a refusal writes no cursor instance, and a move only the named one. -/
theorem otherCursorsAreUntouched : Obligations.OtherCursorsAreUntouched :=
  fun _ _ _ h => State.request_others h

/-- A request does the same to its cursor instance in every state that has the same buffer and the
same such instance. -/
theorem State.request_transfer {s s' t : State} {r : Request} (hcap : s'.bufCap = s.bufCap)
    (hbuf : s'.buf = s.buf) (hcur : s'.cursors[r.cursor]? = s.cursors[r.cursor]?)
    (h : s.request r = .next t) :
    ∃ t' : State, s'.request r = .next t' ∧ t'.response = t.response ∧
      t'.cursors[r.cursor]? = t.cursors[r.cursor]? := by
  obtain ⟨href, rfl⟩ | ⟨c, k, c', code, p, hc, hk, hm, rfl⟩ := State.request_cases h
  · exact ⟨_, State.request_refused (href.congr hcap hcur), rfl, hcur⟩
  · have hm' : CursorMove s' c k c' code p :=
      hm.congr hcap fun a _ _ => State.memRead_congr hcap hbuf a
    have hc' := hcur.trans hc
    exact ⟨_, State.request_of_move hc' hk hm', rfl,
      (State.setCursor_named (s := s'.select r.cursor) hc').trans
        (State.setCursor_named (s := s.select r.cursor) hc).symm⟩

/-- Settles O42: each request finds its own cursor instance and the buffer untouched by the other,
so the two end states agree at every cursor id. -/
theorem commandsOfDifferentCursorsCommute : Obligations.CommandsOfDifferentCursorsCommute := by
  intro s s₁ s₂ p q hpq hp hq
  obtain ⟨hbuf₁, hcap₁⟩ := State.request_buf_bufCap hp
  obtain ⟨-, -, hother₁, -⟩ := State.request_others hp
  obtain ⟨hbuf₂, hcap₂⟩ := State.request_buf_bufCap hq
  obtain ⟨-, -, hother₂, -⟩ := State.request_others hq
  obtain ⟨u₁, hu₁, hresp₁, hnamed₁⟩ :=
    State.request_transfer hcap₁.symm hbuf₁.symm (hother₁ _ hpq.symm).symm hq
  obtain ⟨hbufu₁, hcapu₁⟩ := State.request_buf_bufCap hu₁
  obtain ⟨-, -, hotheru₁, -⟩ := State.request_others hu₁
  obtain ⟨u₂, hu₂, hresp₂, hnamed₂⟩ := State.request_transfer hcapu₁ hbufu₁ (hotheru₁ _ hpq) hp
  obtain ⟨hbufu₂, hcapu₂⟩ := State.request_buf_bufCap hu₂
  obtain ⟨-, -, hotheru₂, -⟩ := State.request_others hu₂
  refine ⟨u₁, u₂, hu₁, hu₂, List.ext_getElem? fun j => ?_, ?_, ?_, hresp₁, hresp₂⟩
  · by_cases hjp : j = p.cursor
    · rw [hjp, hnamed₂, hother₂ _ hpq]
    · rw [hotheru₂ j hjp]
      by_cases hjq : j = q.cursor
      · rw [hjq, hnamed₁]
      · rw [hotheru₁ j hjq, hother₂ j hjq, hother₁ j hjp]
  · rw [hbufu₂, hbufu₁, hbuf₂, hbuf₁]
  · rw [hcapu₂, hcapu₁, hcap₂, hcap₁]

/-- Settles O43: by the invariant the bytes from `POS` to `END` lie in the pass, and a move depends
on no others. -/
theorem commandsReadOnlyTheirPass : Obligations.CommandsReadOnlyTheirPass := by
  intro s t m r c hinv hc hagree h
  obtain ⟨href, rfl⟩ | ⟨c₀, k, c', code, p, hc₀, hk, hm, rfl⟩ := State.request_cases h
  · exact State.request_refused (href.congr rfl rfl)
  · obtain rfl := Option.some.inj (hc₀.symm.trans hc)
    have hbase := (hinv.cursor_inv c₀ (List.mem_of_getElem? hc)).base_le_pos
    exact State.request_of_move (s := { s with buf := m }) hc hk
      (hm.congr (s := s) rfl fun a ha hb => hagree a (hbase.trans ha) hb)

/-! ### The span a `NEXT` accepts (R185) -/

/-- A `NEXT` of the cursor instance accepts the span: its pass is active, and the bytes at `POS` are
a span of the variant `v` that ends within the pass. -/
structure State.AcceptsSpan (s : State) (c : Cursor) (v : Variant) (span : List Byte) : Prop where
  active : c.phase = .active
  is_span : IsSpan v span
  in_pass : c.pos + span.length ≤ c.endOff
  held : s.slice c.pos span.length = some span

theorem State.AcceptsSpan.move {s : State} {c : Cursor} {v : Variant} {span : List Byte}
    (h : s.AcceptsSpan c v span) :
    CursorMove s c .next (c.accept (acceptedRecord v span c.pos)) .ok
      (.record (acceptedRecord v span c.pos)) := by
  obtain ⟨hactive, hspan, hin, hheld⟩ := h
  have hlen := hspan.two_le
  obtain ⟨b0, b1, tail, rfl, -, -⟩ := hspan.exists_cons
  obtain ⟨x, xs, hx, h0, hheld'⟩ := State.slice_succ hheld
  obtain ⟨rfl, rfl⟩ := List.cons.inj hx
  obtain ⟨y, ys, hy, h1, -⟩ := State.slice_succ hheld'
  obtain ⟨rfl, rfl⟩ := List.cons.inj hy
  exact .accepted b0 b1 v _ _ hactive (by omega) h0 h1 hspan (by omega) hheld

/-- What `NEXT` peeks, classifies and slices is a span (R185). -/
theorem State.acceptsSpan_of_peek {s : State} {c : Cursor} {b0 b1 : Byte} {v : Variant} {len : Nat}
    {span : List Byte} (hactive : c.phase = .active) (h0 : s.memRead c.pos = some b0)
    (h1 : s.memRead (c.pos + 1) = some b1) (hclass : classify b0 b1 = some (v, len))
    (hin : ¬ c.endOff < c.pos + len) (hheld : s.slice c.pos len = some span) :
    s.AcceptsSpan c v span := by
  obtain rfl := State.slice_length hheld
  obtain ⟨n, hn⟩ := Nat.exists_eq_add_of_le' (classify_len_bounds hclass).1
  rw [hn] at hheld
  obtain ⟨x, xs, rfl, hx, hxs⟩ := State.slice_succ hheld
  obtain ⟨y, ys, rfl, hy, -⟩ := State.slice_succ hxs
  obtain rfl := Option.some.inj (hx.symm.trans h0)
  obtain rfl := Option.some.inj (hy.symm.trans h1)
  exact { active := hactive, is_span := hclass, in_pass := Nat.not_lt.1 hin, held := hn ▸ hheld }

/-- The only move that responds with a record is that of a `NEXT` which accepts a span. -/
theorem CursorMove.of_record {s : State} {c c' : Cursor} {k : Command} {code : RespCode}
    {rec : Record} (hm : CursorMove s c k c' code (.record rec)) :
    ∃ v span, s.AcceptsSpan c v span ∧ rec = acceptedRecord v span c.pos ∧ k = .next ∧
      code = .ok ∧ c' = c.accept rec := by
  cases hm with
  | accepted b0 b1 v len span hactive hp h0 h1 hclass hl hheld =>
    exact ⟨v, span, State.acceptsSpan_of_peek hactive h0 h1 hclass hl hheld, rfl, rfl, rfl, rfl⟩

/-- A request that responds with a record is a `NEXT` that accepts a span, and the record stands in
`RES` afterwards. -/
theorem State.request_record {s t : State} {r : Request} {code : RespCode} {rec : Record}
    (h : s.request r = .next t) (hresp : t.response = some ⟨code, .record rec⟩) :
    ∃ c v span, s.cursors[r.cursor]? = some c ∧ r.command = some .next ∧
      s.AcceptsSpan c v span ∧ rec = acceptedRecord v span c.pos ∧
      t.cursors[r.cursor]? = some (c.accept rec) := by
  obtain ⟨-, rfl⟩ | ⟨c, k, c', code', p, hc, hk, hm, -⟩ := State.request_cases h
  · cases hresp
  · obtain ⟨hresp', hnamed⟩ := State.request_move_result hc hk hm h
    cases hresp'.symm.trans hresp
    obtain ⟨v, span, hacc, hrec, rfl, -, rfl⟩ := hm.of_record
    exact ⟨c, v, span, hc, hk, hacc, hrec, hnamed⟩

/-! ### The accepted record (R166) -/

@[simp] theorem acceptedRecord_variant (v : Variant) (span : List Byte) (pos : Nat) :
    (acceptedRecord v span pos).variant = v := decodeSpan_variant v span

theorem acceptedRecord_bytes {v : Variant} {span : List Byte} (h : IsSpan v span) (pos : Nat) :
    (acceptedRecord v span pos).bytes = span := h.encode_decodeSpan

theorem acceptedRecord_len {v : Variant} {span : List Byte} (h : IsSpan v span) (pos : Nat) :
    (acceptedRecord v span pos).len = span.length := congrArg List.length h.encode_decodeSpan

/-- The accepted record is the decoding of its own bytes. -/
theorem acceptedRecord_decodesItsBytes (v : Variant) (span : List Byte) (pos : Nat) :
    (acceptedRecord v span pos).DecodesItsBytes :=
  ⟨decodeSpan v span, decodeSpan_wellFormed v span, rfl⟩

end Sys2Proof.Machine
end

section
/-! Proofs about the invariant of the machine and about whole passes (10_state.md R23 to R31,
44_cursor.md R180, R187, R188). -/

namespace Sys2Proof.Machine

/-! ### Every move keeps the registers of its cursor instance in order (R26 to R31) -/

theorem Cursor.reset_inv (cap : Nat) : Cursor.reset.Inv cap where
  base_le_pos := Nat.le_refl 0
  pos_le_end := Nat.le_refl 0
  end_le_cap := Nat.zero_le cap
  err_iff_faulted := by simp
  clear_unless_faulted _ := ⟨rfl, rfl⟩
  error_at_pos := nofun
  idle_at_reset _ := rfl
  result_active h := absurd rfl h

theorem Cursor.beginPass_inv {cap base len : Nat} (h : base + len ≤ cap) :
    (Cursor.beginPass base len).Inv cap where
  base_le_pos := Nat.le_refl base
  pos_le_end := Nat.le_add_right base len
  end_le_cap := h
  err_iff_faulted := by simp
  clear_unless_faulted _ := ⟨rfl, rfl⟩
  error_at_pos := nofun
  idle_at_reset := nofun
  result_active h := absurd rfl h

theorem Cursor.Inv.err_none {cap : Nat} {c : Cursor} (h : c.Inv cap) (hphase : c.phase ≠ .faulted) :
    c.err = .none :=
  not_not.1 (mt h.err_iff_faulted.1 hphase)

theorem Cursor.Inv.dropResult {cap : Nat} {c : Cursor} (h : c.Inv cap) (hphase : c.phase ≠ .idle) :
    c.dropResult.Inv cap where
  base_le_pos := h.base_le_pos
  pos_le_end := h.pos_le_end
  end_le_cap := h.end_le_cap
  err_iff_faulted := h.err_iff_faulted
  clear_unless_faulted := h.clear_unless_faulted
  error_at_pos := h.error_at_pos
  idle_at_reset hidle := absurd hidle hphase
  result_active hres := absurd rfl hres

theorem Cursor.Inv.endPass {cap : Nat} {c : Cursor} (h : c.Inv cap) (hphase : c.phase ≠ .faulted) :
    c.endPass.Inv cap where
  base_le_pos := h.base_le_pos
  pos_le_end := h.pos_le_end
  end_le_cap := h.end_le_cap
  err_iff_faulted := by simp [h.err_none hphase]
  clear_unless_faulted _ := h.clear_unless_faulted hphase
  error_at_pos := nofun
  idle_at_reset := nofun
  result_active hres := absurd rfl hres

theorem Cursor.Inv.enterError {cap : Nat} {c : Cursor} {e : ErrCode} (h : c.Inv cap) (b0 : Byte)
    (he : e ≠ .none) : (c.enterError e b0).Inv cap where
  base_le_pos := h.base_le_pos
  pos_le_end := h.pos_le_end
  end_le_cap := h.end_le_cap
  err_iff_faulted := iff_of_true he rfl
  clear_unless_faulted hphase := absurd rfl hphase
  error_at_pos _ := rfl
  idle_at_reset := nofun
  result_active hres := absurd rfl hres

theorem Cursor.Inv.accept {cap : Nat} {c : Cursor} {r : Record} (h : c.Inv cap)
    (hactive : c.phase = .active) (hin : c.pos + r.len ≤ c.endOff) : (c.accept r).Inv cap where
  base_le_pos := h.base_le_pos.trans (Nat.le_add_right _ _)
  pos_le_end := hin
  end_le_cap := h.end_le_cap
  err_iff_faulted := h.err_iff_faulted
  clear_unless_faulted := h.clear_unless_faulted
  error_at_pos hphase := nomatch hactive.symm.trans hphase
  idle_at_reset hphase := nomatch hactive.symm.trans hphase
  result_active _ := hactive

theorem CursorMove.keeps_inv {s : State} {c c' : Cursor} {k : Command} {code : RespCode}
    {p : Payload} (hm : CursorMove s c k c' code p) (h : c.Inv s.bufCap) : c'.Inv s.bufCap := by
  cases hm with
  | reset => exact Cursor.reset_inv _
  | start base len hin => exact Cursor.beginPass_inv hin
  | hasNext | read | idle => exact h
  | ended hphase | faulted _ hphase => exact h.dropResult (by simp [hphase])
  | endOfStream hphase => exact h.endPass (by simp [hphase])
  | unrecognized | truncated => exact h.enterError _ nofun
  | accepted b0 b1 v len span hactive hp h0 h1 hclass hl hheld =>
    obtain ⟨-, hspan, hin, -⟩ := State.acceptsSpan_of_peek hactive h0 h1 hclass hl hheld
    exact h.accept hactive (by rwa [acceptedRecord_len hspan])

/-- An accepted record is the decoding of the bytes the buffer holds just before `POS` (R31). -/
theorem State.AcceptsSpan.resultInv {s : State} {c : Cursor} {v : Variant} {span : List Byte}
    (h : s.AcceptsSpan c v span) (hbase : c.base ≤ c.pos) :
    s.ResultInv (c.accept (acceptedRecord v span c.pos)) (acceptedRecord v span c.pos) where
  in_pass := hbase
  ends_at_pos := rfl
  is_span := by
    rw [acceptedRecord_len h.is_span, acceptedRecord_bytes h.is_span]
    exact h.held
  decodes := acceptedRecord_decodesItsBytes v span c.pos

/-- A move leaves a valid result as it is, drops it, or writes an accepted record. -/
theorem CursorMove.keeps_resultInv {s : State} {c c' : Cursor} {k : Command} {code : RespCode}
    {p : Payload} (hm : CursorMove s c k c' code p) (hbase : c.base ≤ c.pos)
    (h : ∀ r, c.res = some r → s.ResultInv c r) : ∀ r, c'.res = some r → s.ResultInv c' r := by
  cases hm with
  | reset | start | ended | faulted | endOfStream | unrecognized | truncated =>
    exact fun r hr => absurd hr (by simp)
  | hasNext | read | idle => exact h
  | accepted b0 b1 v len span hactive hp h0 h1 hclass hl hheld =>
    rintro r hr
    obtain rfl := Option.some.inj hr
    exact (State.acceptsSpan_of_peek hactive h0 h1 hclass hl hheld).resultInv hbase

/-! ### Every step keeps the invariant -/

/-- A valid result stays one where its bytes stay. -/
theorem State.ResultInv.congr {s t : State} {c : Cursor} {r : Record} (h : s.ResultInv c r)
    (hread : ∀ a, c.base ≤ a → a < c.pos → t.memRead a = s.memRead a) : t.ResultInv c r where
  in_pass := h.in_pass
  ends_at_pos := h.ends_at_pos
  is_span := by
    rw [← h.is_span]
    exact State.slice_congr fun a hlo hhi => hread a (h.in_pass.trans hlo) (h.ends_at_pos ▸ hhi)
  decodes := h.decodes

/-- A state with the same buffer meets the invariant, when each of its cursor instances is an old
one or meets it by itself. -/
theorem State.Inv.of_same_buffer {s t : State} (h : s.Inv) (hcap : t.bufCap = s.bufCap)
    (hbuf : t.buf = s.buf) (hne : t.cursors ≠ [])
    (hcur : ∀ c ∈ t.cursors,
      c ∈ s.cursors ∨ (c.Inv s.bufCap ∧ ∀ r, c.res = some r → s.ResultInv c r)) : t.Inv where
  cap_two := hcap ▸ h.cap_two
  has_cursor := hne
  buf_wf := hbuf ▸ h.buf_wf
  buf_in_cap := by
    rw [hcap, hbuf]
    exact h.buf_in_cap
  cursor_inv c hc := by
    rw [hcap]
    exact (hcur c hc).elim (h.cursor_inv c) And.left
  result_inv c hc r hr :=
    State.ResultInv.congr ((hcur c hc).elim (fun hs => h.result_inv c hs r hr) fun hi => hi.2 r hr)
      fun a _ _ => State.memRead_congr hcap hbuf a

theorem runRequest_keeps_inv {s t : State} {r : Request} (h : s.Inv)
    (hrun : runRequest r s = .next t) : t.Inv := by
  obtain ⟨-, rfl⟩ | ⟨c, k, c', code, p, hc, -, hm, rfl⟩ := runRequest_cases hrun
  · exact h.of_same_buffer rfl rfl h.has_cursor fun c hc => .inl hc
  · have hmem := List.mem_of_getElem? hc
    have hcinv := h.cursor_inv c hmem
    refine h.of_same_buffer rfl rfl (by simpa using h.has_cursor) fun d hd => ?_
    obtain hold | rfl := List.mem_or_eq_of_mem_set hd
    · exact .inl hold
    · exact .inr ⟨hm.keeps_inv hcinv,
        hm.keeps_resultInv hcinv.base_le_pos (h.result_inv c hmem)⟩

theorem powerOn_keeps_inv {s t : State} (h : s.Inv) (hrun : powerOn s = .next t) : t.Inv := by
  obtain rfl := Host.Outcome.next.inj hrun
  refine h.of_same_buffer rfl rfl (by simpa using h.has_cursor) fun c hc => .inr ?_
  obtain ⟨-, -, rfl⟩ := List.mem_map.1 hc
  exact ⟨Cursor.reset_inv _, fun r hr => absurd hr (by simp)⟩

/-! ### Host loads (R62) -/

/-- A cursor instance may read one of some offsets exactly when its pass is active and holds one. -/
theorem Cursor.mayRead_iff {c : Cursor} {a n : Nat} :
    c.mayRead a n = true ↔
      c.phase = .active ∧ ∃ x, a ≤ x ∧ x < a + n ∧ c.base ≤ x ∧ x < c.endOff := by
  rw [Cursor.mayRead, Bool.and_eq_true, beq_iff_eq, decide_eq_true_iff]
  refine and_congr_right fun _ => ⟨fun h => ⟨max a c.base, ?_⟩, ?_⟩
  · omega
  · rintro ⟨x, hx⟩
    omega

/-- A load that answers a next state is within the capacity and clear of every active pass. -/
theorem hostLoad_cases {s t : State} {a : Nat} {bytes : List Byte}
    (h : hostLoad a bytes s = .next t) :
    a + bytes.length ≤ s.bufCap ∧ (∀ c ∈ s.cursors, ¬ c.mayRead a bytes.length = true) ∧
      t = { s with buf := s.buf.insertAll a bytes } := by
  unfold hostLoad at h
  split at h
  · cases h
  · next hcap =>
    split at h
    · cases h
    · next hclear =>
      exact ⟨Nat.not_lt.1 hcap, by simpa using hclear, (Host.Outcome.next.inj h).symm⟩

theorem State.memRead_insertAll_outside (s : State) {a x : Nat} (bytes : List Byte)
    (h : x < a ∨ a + bytes.length ≤ x) :
    { s with buf := s.buf.insertAll a bytes }.memRead x = s.memRead x := by
  have hlookup : (s.buf.insertAll a bytes).lookup x = s.buf.lookup x :=
    h.elim (Memory.lookup_insertAll_before _ _ _ _) (Memory.lookup_insertAll_after _ _ _ _)
  simp only [State.memRead, hlookup]

theorem State.memRead_insertAll_inside {s : State} {a k : Nat} {bytes : List Byte}
    (hk : k < bytes.length) (hcap : a + bytes.length ≤ s.bufCap) :
    { s with buf := s.buf.insertAll a bytes }.memRead (a + k) = bytes[k]? := by
  rw [State.memRead, if_pos (show a + k < s.bufCap by omega),
    Memory.lookup_insertAll_inside _ _ _ _ hk, List.getElem?_eq_getElem hk]
  rfl

theorem hostLoad_keeps_inv {s t : State} {a : Nat} {bytes : List Byte} (h : s.Inv)
    (hrun : hostLoad a bytes s = .next t) : t.Inv := by
  obtain ⟨hcap, hclear, rfl⟩ := hostLoad_cases hrun
  refine ⟨h.cap_two, h.has_cursor, Memory.insertAll_wf _ _ _ h.buf_wf,
    Memory.insertAll_in_cap _ _ _ _ h.buf_in_cap hcap, h.cursor_inv, fun c hc r hr => ?_⟩
  have hcinv := h.cursor_inv c hc
  have hactive := hcinv.result_active (by simp [hr])
  refine (h.result_inv c hc r hr).congr fun x hlo hhi => State.memRead_insertAll_outside s bytes ?_
  by_contra hin
  have hend := hcinv.pos_le_end
  exact hclear c hc (Cursor.mayRead_iff.2 ⟨hactive, x, by omega⟩)

/-- Settles O45: a request is refused or moves one cursor instance, a power-on reset resets them
all, and a load stays clear of every active pass, so of the bytes of every valid result. -/
theorem everyStepKeepsTheInvariant : Obligations.EveryStepKeepsTheInvariant := by
  intro s t h hstep
  unfold step at hstep
  split at hstep
  · obtain rfl := Host.Outcome.next.inj hstep
    exact h
  · next e later _ =>
    have hs : { s with pending := later }.Inv :=
      h.of_same_buffer rfl rfl h.has_cursor fun c hc => .inl hc
    cases e with
    | command r => exact runRequest_keeps_inv hs hstep
    | load a bytes => exact hostLoad_keeps_inv hs hstep
    | powerOn => exact powerOn_keeps_inv hs hstep
    | writeMap =>
      obtain rfl := Host.Outcome.next.inj hstep
      exact hs

/-- Settles O44: the one cursor instance of State.reset is in its reset state. -/
theorem resetMeetsTheInvariant : Obligations.ResetMeetsTheInvariant where
  cap_two := by decide
  has_cursor := by decide
  buf_wf := State.reset_buf_wf
  buf_in_cap := nofun
  cursor_inv c hc := List.eq_of_mem_replicate hc ▸ Cursor.reset_inv _
  result_inv c hc r hr := by
    obtain rfl := List.eq_of_mem_replicate hc
    cases hr

/-! ### Widths of the positions (R6, R30) -/

theorem lt_two_pow_posW (cap : Nat) : cap < 2 ^ Config.posW cap := Nat.lt_log2_self

/-- Settles O46: every position is at most the capacity, which `POS_W` bits are the least to
hold. -/
theorem positionsFitTheirWidth : Obligations.PositionsFitTheirWidth := by
  intro s h
  have hcap := lt_two_pow_posW s.bufCap
  refine ⟨fun c hc => ?_, hcap, fun n hn => ?_⟩
  · have hcinv := h.cursor_inv c hc
    have hbase := hcinv.base_le_pos
    have hpos := hcinv.pos_le_end
    have hend := hcinv.end_le_cap
    have herr : c.errPos ≤ c.pos := by
      by_cases hphase : c.phase = .faulted
      · exact (hcinv.error_at_pos hphase).le
      · exact (hcinv.clear_unless_faulted hphase).1 ▸ Nat.zero_le _
    omega
  · exact (Nat.log2_lt (by have := h.cap_two; omega)).2 hn

end Sys2Proof.Machine
end

section
/-! Proofs about the completion of commands and about whole passes (44_cursor.md R180, R185, R187,
R188). -/

namespace Sys2Proof.Machine

/-! ### Every command completes (R180) -/

/-- In an active pass within the buffer a `NEXT` accepts a span, or stops the pass. -/
theorem State.acceptsSpan_or_stops {s : State} {c : Cursor} (hactive : c.phase = .active)
    (hcap : c.endOff ≤ s.bufCap) :
    (∃ v span, s.AcceptsSpan c v span) ∨
    ∃ c' code, CursorMove s c .next c' code .none ∧ c'.phase ≠ .active ∧
      (code = .endOfStream ∨ code = .unrecognizedOpcode ∨ code = .truncatedInstruction) := by
  by_cases hpos : c.pos + 1 < c.endOff
  · obtain ⟨b0, h0⟩ := State.memRead_eq_some (s := s) (a := c.pos) (by omega)
    obtain ⟨b1, h1⟩ := State.memRead_eq_some (s := s) (a := c.pos + 1) (by omega)
    cases hclass : classify b0 b1 with
    | none =>
      exact .inr ⟨_, _, .unrecognized b0 b1 hactive hpos h0 h1 hclass, nofun, .inr (.inl rfl)⟩
    | some vl =>
      obtain ⟨v, len⟩ := vl
      by_cases hlen : c.endOff < c.pos + len
      · exact .inr ⟨_, _, .truncated b0 b1 v len hactive hpos h0 h1 hclass hlen, nofun,
          .inr (.inr rfl)⟩
      · obtain ⟨span, hheld, -⟩ := State.slice_eq_some (s := s) (n := len) (a := c.pos) (by omega)
        exact .inl ⟨v, span, State.acceptsSpan_of_peek hactive h0 h1 hclass hlen hheld⟩
  · exact .inr ⟨_, _, .endOfStream hactive hpos, nofun, .inl rfl⟩

/-- In every phase a `NEXT` has a move. -/
theorem CursorMove.exists_next {s : State} {c : Cursor} (hcap : c.endOff ≤ s.bufCap) :
    ∃ c' code p, CursorMove s c .next c' code p := by
  cases hphase : c.phase with
  | idle => exact ⟨_, _, _, .idle hphase⟩
  | ended => exact ⟨_, _, _, .ended hphase⟩
  | faulted => exact ⟨_, _, _, .faulted _ hphase rfl⟩
  | active =>
    obtain ⟨v, span, hacc⟩ | ⟨c', code, hm, -, -⟩ := State.acceptsSpan_or_stops hphase hcap
    · exact ⟨_, _, _, hacc.move⟩
    · exact ⟨_, _, _, hm⟩

/-- Settles O47: a request with no cursor instance or command, or out of range, is refused, and
every other has a move, but for a `READ` of no value. -/
theorem everyCommandCompletes : Obligations.EveryCommandCompletes := by
  intro s r h hread
  cases hk : r.command with
  | none => exact ⟨_, State.request_refused (.inl hk)⟩
  | some k =>
    cases hc : s.cursors[r.cursor]? with
    | none => exact ⟨_, State.request_refused (.inr (.inl hc))⟩
    | some c =>
      cases k with
      | reset => exact ⟨_, State.request_of_move hc hk .reset⟩
      | hasNext => exact ⟨_, State.request_of_move hc hk .hasNext⟩
      | start base len =>
        by_cases hin : base + len ≤ s.bufCap
        · exact ⟨_, State.request_of_move hc hk (.start base len hin)⟩
        · exact ⟨_, State.request_refused (.inr (.inr ⟨base, len, hk, Nat.not_le.1 hin⟩))⟩
      | next =>
        have hend := (h.cursor_inv c (List.mem_of_getElem? hc)).end_le_cap
        obtain ⟨c', code, p, hm⟩ := CursorMove.exists_next hend
        exact ⟨_, State.request_of_move hc hk hm⟩
      | read index =>
        have hvalue : c.readReg index ≠ none := fun hnone => by
          obtain ⟨hlo, hhi, hres⟩ := Cursor.readReg_eq_none_iff.1 hnone
          exact hread c index hc hk hres ⟨hlo, hhi⟩
        obtain ⟨v, hv⟩ := Option.ne_none_iff_exists'.1 hvalue
        exact ⟨_, State.request_of_move hc hk (.read index v hv)⟩

/-! ### What moves `POS` (R24, R31) -/

/-- Settles O39: of the moves but `START` and `RESET` only that of an accepted span writes `POS` or
sets `RES`. -/
theorem onlyASuccessfulNextAdvances : Obligations.OnlyASuccessfulNextAdvances := by
  intro s t r c c' hc h hc' hstart hreset
  obtain ⟨-, rfl⟩ | ⟨c₀, k, c₁, code, p, hc₀, hk, hm, -⟩ := State.request_cases h
  · obtain rfl := Option.some.inj (hc'.symm.trans hc)
    exact ⟨rfl, rfl, .inl ⟨rfl, .inl rfl⟩⟩
  · obtain rfl := Option.some.inj (hc₀.symm.trans hc)
    obtain ⟨hresp, hnamed⟩ := State.request_move_result hc hk hm h
    obtain rfl := Option.some.inj (hnamed.symm.trans hc')
    cases hm with
    | reset => exact absurd hk hreset
    | start base len => exact absurd hk (hstart base len)
    | hasNext | read | idle => exact ⟨rfl, rfl, .inl ⟨rfl, .inl rfl⟩⟩
    | ended | faulted | endOfStream | unrecognized | truncated =>
      exact ⟨rfl, rfl, .inl ⟨rfl, .inr rfl⟩⟩
    | accepted b0 b1 v len span hactive hp h0 h1 hclass hl hheld =>
      obtain ⟨-, hspan, hin, -⟩ := State.acceptsSpan_of_peek hactive h0 h1 hclass hl hheld
      have hlen := acceptedRecord_len hspan c₀.pos
      exact ⟨rfl, rfl, .inr ⟨_, hk, hresp, rfl, rfl, hlen ▸ hspan.two_le,
        show c₀.pos + _ ≤ _ from hlen ▸ hin⟩⟩

/-! ### Successive `NEXT` commands (R187) -/

theorem State.nexts_succ_of_record {s t : State} {id : Nat} {rec : Record} (k : Nat)
    (h : s.request (nextRequest id) = .next t) (hresp : t.response = some ⟨.ok, .record rec⟩) :
    s.nexts id (k + 1) = (t.nexts id k).map fun p => (rec :: p.1, p.2) := by
  simp only [State.nexts, h, hresp]

/-- A pass of `k + 1` records is one record and a pass of `k` after it. -/
theorem State.nexts_succ_eq_some {s u : State} {id k : Nat} {records : List Record}
    (h : s.nexts id (k + 1) = some (records, u)) :
    ∃ t rec rest, s.request (nextRequest id) = .next t ∧ t.response = some ⟨.ok, .record rec⟩ ∧
      t.nexts id k = some (rest, u) ∧ records = rec :: rest := by
  rw [State.nexts] at h
  split at h
  · next t ht =>
    split at h
    · next rec hrec =>
      obtain ⟨⟨rest, u'⟩, hrest, hp⟩ := Option.map_eq_some_iff.1 h
      obtain ⟨rfl, rfl⟩ := Prod.mk.inj hp
      exact ⟨t, rec, rest, ht, hrec, hrest, rfl⟩
    · cases h
  · cases h

theorem State.slice_eq_of_request {s t : State} {r : Request} (h : s.request r = .next t)
    (a n : Nat) : t.slice a n = s.slice a n := by
  obtain ⟨hbuf, hcap⟩ := State.request_buf_bufCap h
  exact State.slice_congr fun x _ _ => State.memRead_congr hcap hbuf x

/-- Settles O48: by induction on the number of records, the first of which ends where the pass of
the others starts. -/
theorem recordsOfAPassCoverTheBuffer : Obligations.RecordsOfAPassCoverTheBuffer := by
  intro s u id k c records hc h
  induction k generalizing s c records with
  | zero =>
    obtain ⟨rfl, rfl⟩ := Prod.mk.inj (Option.some.inj h)
    refine ⟨c, hc, rfl, rfl, fun hk => absurd rfl hk, rfl, rfl, ?_,
      fun j r hr => absurd hr (by simp)⟩
    rw [Nat.sub_self]
    rfl
  | succ k ih =>
    obtain ⟨t, rec, rest, ht, hresp, hrest, rfl⟩ := State.nexts_succ_eq_some h
    obtain ⟨c₀, v, span, hc₀, -, ⟨-, hspan, hin, hheld⟩, rfl, hnamed⟩ :=
      State.request_record ht hresp
    obtain rfl := Option.some.inj (hc₀.symm.trans hc)
    obtain ⟨c', hc', hcount, hpos, hend, hendOff, hbase, hcover, hstarts⟩ :=
      ih t _ rest hnamed hrest
    have hlen : (acceptedRecord v span c₀.pos).len = span.length := acceptedRecord_len hspan _
    simp only [Cursor.accept_pos, hlen] at hpos hcover hstarts
    refine ⟨c', hc', congrArg (· + 1) hcount, ?pos, fun _ => ?atMostEnd, hendOff, hbase, ?cover,
      ?starts⟩
    case pos =>
      rw [List.map_cons, List.sum_cons, hlen, hpos, Nat.add_assoc]
    case atMostEnd =>
      by_cases hk : k = 0
      · obtain rfl : rest = [] := List.eq_nil_of_length_eq_zero (hcount.trans hk)
        exact hpos ▸ hin
      · exact hend hk
    case cover =>
      rw [State.slice_eq_of_request ht] at hcover
      rw [List.flatMap_cons, acceptedRecord_bytes hspan,
        show c'.pos - c₀.pos = span.length + (c'.pos - (c₀.pos + span.length)) by omega]
      exact State.slice_append _ _ _ hheld hcover
    case starts =>
      intro j r hr
      cases j with
      | zero =>
        obtain rfl := Option.some.inj hr
        rfl
      | succ j =>
        rw [hstarts j r hr, List.take_succ_cons, List.map_cons, List.sum_cons, hlen, Nat.add_assoc]

/-! ### A pass ends (R188) -/

/-- Settles O49: by induction on the bytes left, of which an accepted span takes at least two. -/
theorem everyPassEnds : Obligations.EveryPassEnds := by
  intro s id c h hc hactive
  induction hleft : c.endOff - c.pos using Nat.strong_induction_on generalizing s c with
  | _ left ih =>
    have hend := (h.cursor_inv c (List.mem_of_getElem? hc)).end_le_cap
    obtain ⟨v, span, hacc⟩ | ⟨c', code, hm, hphase, hcode⟩ :=
      State.acceptsSpan_or_stops hactive hend
    · have ht := State.request_of_move (r := nextRequest id) hc rfl hacc.move
      obtain ⟨hresp, hnamed⟩ := State.request_move_result hc rfl hacc.move ht
      have hlen : (acceptedRecord v span c.pos).len = span.length :=
        acceptedRecord_len hacc.is_span c.pos
      have htwo := hacc.is_span.two_le
      have hin := hacc.in_pass
      obtain ⟨k, records, t, u, c', code, hk, hnexts, hrest⟩ :=
        ih _ (by simp only [Cursor.accept_endOff, Cursor.accept_pos, hlen]; omega) _ _
          (runRequest_keeps_inv h ht) hnamed hactive rfl
      refine ⟨k + 1, acceptedRecord v span c.pos :: records, t, u, c', code, ?_, ?_, hrest⟩
      · simp only [Cursor.accept_endOff, Cursor.accept_pos, hlen] at hk
        omega
      · rw [State.nexts_succ_of_record k ht hresp, hnexts]
        rfl
    · have hu := State.request_of_move (r := nextRequest id) hc rfl hm
      obtain ⟨hresp, hnamed⟩ := State.request_move_result hc rfl hm hu
      exact ⟨0, [], s, _, c', code, Nat.zero_le _, rfl, hu, hresp, hcode, hnamed, hphase⟩

end Sys2Proof.Machine
end

section
/-! Proofs about the prefix table, the opcode map, the lengths and the bits a span's decoding reads
(30_encoding.md R84 to R87, 41_field_decoder.md R131, 42_classifier.md R142, R146). -/

namespace Sys2Proof

/-! ### The order of the prefix table (R142) -/

/-- Two entries differ in a bit that both test. -/
def PrefixEntry.Conflicts (e f : PrefixEntry) : Prop := e.value &&& f.mask ≠ f.value &&& e.mask

theorem prefixTable_conflicts :
    ∀ e ∈ prefixTable, ∀ f ∈ prefixTable, e ≠ f → e.Conflicts f := by
  unfold PrefixEntry.Conflicts
  decide

/-- A byte matches at most one of two entries that conflict. -/
theorem PrefixEntry.Conflicts.not_both {e f : PrefixEntry} (h : e.Conflicts f) {b0 : Byte}
    (he : e.hits b0 = true) (hf : f.hits b0 = true) : False := by
  rw [PrefixEntry.hits, beq_iff_eq] at he hf
  apply h
  rw [← he, ← hf, BitVec.and_assoc, BitVec.and_assoc, BitVec.and_comm e.mask]

/-- Settles O5: any two entries conflict, so at most one matches and the order is of no account. -/
theorem prefixOrderDoesNotMatter : Obligations.PrefixOrderDoesNotMatter := by
  intro l hperm b0
  refine congrArg (Option.map _) (List.find?_eq_find?_of_perm hperm ?_)
  rintro e ⟨he, hehits⟩ f ⟨hf, hfhits⟩
  by_contra hne
  exact (prefixTable_conflicts e (hperm.mem_iff.1 he) f (hperm.mem_iff.1 hf) hne).not_both
    hehits hfhits

/-! ### The opcode map (R84, R85) -/

theorem byte_toNat_lt (b : Byte) : b.toNat < 256 := b.isLt

/-- The bits of a byte from `start` on, as a number. -/
theorem byte_field_toNat (b : Byte) (start n : Nat) :
    (b.extractLsb' start n).toNat = b.toNat / 2 ^ start % 2 ^ n := by
  rw [BitVec.extractLsb'_toNat, Nat.shiftRight_eq_div_pow]

/-- The bytes that match no prefix are those whose number no opcode has (R85). -/
theorem matchPrefix_eq_none_iff_ranges {b0 : Byte} :
    matchPrefix b0 = none ↔
      b0.toNat ≤ 0x87 ∨ (0x8C ≤ b0.toNat ∧ b0.toNat ≤ 0x9F) ∨
      (0xA4 ≤ b0.toNat ∧ b0.toNat ≤ 0xAF) ∨ (0xC0 ≤ b0.toNat ∧ b0.toNat ≤ 0xC5) ∨
      0xC8 ≤ b0.toNat := by
  have hrmr := matchPrefix_eq_rmr_iff (b0 := b0)
  have hmta := matchPrefix_eq_mta_iff (b0 := b0)
  have hatm := matchPrefix_eq_atm_iff (b0 := b0)
  have hirm := matchPrefix_eq_irm_iff (b0 := b0)
  have hir := matchPrefix_eq_ir_iff (b0 := b0)
  cases hm : matchPrefix b0 with
  | none =>
    simp only [hm, reduceCtorEq, false_iff] at hrmr hmta hatm hirm hir
    simp only [true_iff]
    omega
  | some v =>
    simp only [reduceCtorEq, false_iff]
    cases v with
    | rmr => have := hrmr.1 hm; omega
    | mta => have := hmta.1 hm; omega
    | atm => have := hatm.1 hm; omega
    | irm => have := hirm.1 hm; omega
    | ir => have := hir.1 hm; omega

/-- Settles O4: each opcode is a quotient of byte 0, and the fields it leaves are the remainder. -/
theorem opcodeMapOfByteZero : Obligations.OpcodeMapOfByteZero := by
  intro b0
  refine ⟨?rmrRange, ?mtaRange, ?atmRange, ?irRange, ?irmRange, matchPrefix_eq_none_iff_ranges,
    fun b1 => ⟨fun h => ⟨_, _, _, _, _, rfl, ?rmr⟩, fun h => ⟨_, rfl, ?mta⟩,
      fun h => ⟨_, rfl, ?atm⟩, fun h => ⟨_, _, rfl, ?ir⟩, fun h => ⟨_, _, _, _, rfl, ?irm⟩⟩⟩
  case rmrRange => rw [matchPrefix_eq_rmr_iff]; omega
  case mtaRange => rw [matchPrefix_eq_mta_iff]; omega
  case atmRange => rw [matchPrefix_eq_atm_iff]; omega
  case irRange => rw [matchPrefix_eq_ir_iff]; omega
  case irmRange => rw [matchPrefix_eq_irm_iff]; omega
  case rmr =>
    rw [matchPrefix_eq_rmr_iff] at h
    rw [byte_field_toNat, byte_field_toNat]
    omega
  case mta =>
    rw [matchPrefix_eq_mta_iff] at h
    rw [byte_field_toNat]
    omega
  case atm =>
    rw [matchPrefix_eq_atm_iff] at h
    rw [byte_field_toNat]
    omega
  case irm =>
    rw [matchPrefix_eq_irm_iff] at h
    rw [byte_field_toNat]
    omega
  case ir =>
    rw [matchPrefix_eq_ir_iff] at h
    rw [byte_field_toNat b0 0 3]
    obtain hb | hb := bit_cases (b0.extractLsb' 3 1)
    · have hw : 0 = b0.toNat / 2 ^ 3 % 2 ^ 1 :=
        (congrArg BitVec.toNat hb).symm.trans (byte_field_toNat b0 3 1)
      rw [if_pos hb]
      omega
    · have hw : 1 = b0.toNat / 2 ^ 3 % 2 ^ 1 :=
        (congrArg BitVec.toNat hb).symm.trans (byte_field_toNat b0 3 1)
      rw [hb, if_neg (by decide)]
      omega

/-! ### Lengths (R146, R147) -/

/-- `dispLen` by the number of `mod` (R77). -/
theorem dispLen_eq (mod : ModField) (rm : RegCode) (ds : Bool) :
    dispLen mod rm ds =
      if mod.toNat = 0 then (if ds = true ∧ rm.toNat = 6 then 2 else 0)
      else if mod.toNat = 1 then 1 else if mod.toNat = 2 then 2 else 0 := by
  have hrm : rm = 6 ↔ rm.toNat = 6 := BitVec.toNat_inj.symm
  obtain rfl | rfl | rfl | rfl := mod_cases mod
  · rw [if_pos (show (0 : ModField).toNat = 0 from rfl), dispLen_mod0]
    exact if_congr (by rw [Bool.and_eq_true, beq_iff_eq, hrm]) rfl rfl
  · rfl
  · rfl
  · rfl

/-- Settles O6: the length rule of each variant, on the numbers of its fields. -/
theorem lengthOfEveryVariant : Obligations.LengthOfEveryVariant := by
  intro b0 b1 v len h
  obtain ⟨htwo, hsix⟩ := classify_len_bounds h
  obtain ⟨v', hv, hp⟩ := Option.map_eq_some_iff.1 h
  obtain ⟨rfl, rfl⟩ := Prod.mk.inj hp
  have hb1 := byte_toNat_lt b1
  have hmod : (b1.extractLsb' 6 2).toNat = b1.toNat / 64 := by
    rw [byte_field_toNat]
    omega
  refine ⟨hv, htwo, hsix, ?rmr, ?irm, ?ir, ?acc⟩
  case rmr =>
    rintro rfl
    simp only [extractFields, instrLen, dispLen_eq, hmod, byte_field_toNat, true_and]
    split_ifs <;> omega
  case irm =>
    rintro rfl
    simp only [extractFields, instrLen, dispLen_eq, hmod, byte_field_toNat, Nat.reducePow,
      Nat.div_one, Bool.false_eq_true, false_and, if_false]
    split_ifs <;> omega
  case ir =>
    rintro rfl
    simp only [extractFields, instrLen, byte_field_toNat]
    omega
  case acc =>
    rintro (rfl | rfl)
    · simp only [extractFields, instrLen, byte_field_toNat]
      omega
    · simp only [extractFields, instrLen, byte_field_toNat]
      omega

/-! ### What a decoding reads (R87, R131) -/

/-- Settles O7: a span is an encoding, and an encoding is decoded whatever follows it. -/
theorem extractionReadsOnlyTheSpan : Obligations.ExtractionReadsOnlyTheSpan := by
  intro b0 b1 tail more v h
  obtain ⟨i, hwf, rfl, hspan⟩ := isSpan_iff_encode.1 (show IsSpan v (b0 :: b1 :: tail) from h)
  rw [← hspan, decodeSpan_encode_append more hwf, decodeSpan_encode hwf]

/-- The displacement does not depend on the first two bytes of a span. -/
theorem extractDisp_cons_cons (v : Variant) (mod : ModField) (rm : RegCode) (b0 b1 b0' b1' : Byte)
    (tail : List Byte) :
    extractDisp v mod rm (b0 :: b1 :: tail) = extractDisp v mod rm (b0' :: b1' :: tail) := by
  obtain rfl | rfl | rfl | rfl := mod_cases mod <;> rfl

/-- Nor do data that stand after them. -/
theorem extractData_cons_cons (w : Bit) (k : Nat) (b0 b1 b0' b1' : Byte) (tail : List Byte) :
    extractData w (2 + k) (b0 :: b1 :: tail) = extractData w (2 + k) (b0' :: b1' :: tail) := by
  rw [Nat.add_comm 2]
  rfl

theorem decodeSpan_irm (b0 b1 : Byte) (tail : List Byte) :
    decodeSpan .irm (b0 :: b1 :: tail) =
      .irm (b0.extractLsb' 0 1) (b1.extractLsb' 6 2) (b1.extractLsb' 3 3) (b1.extractLsb' 0 3)
        (extractDisp .irm (b1.extractLsb' 6 2) (b1.extractLsb' 0 3) (b0 :: b1 :: tail)).1
        (extractData (b0.extractLsb' 0 1)
          (2 + dispLen (b1.extractLsb' 6 2) (b1.extractLsb' 0 3) false) (b0 :: b1 :: tail)) := rfl

/-- Settles O8: the raw `reg` field is the only one that bits 5:3 of byte 1 reach, and neither the
length, nor the well-formedness, nor the other fields of the record look at it. -/
theorem irmRegBitsSelectNothing : Obligations.IrmRegBitsSelectNothing := by
  intro b0 b1 b1' tail hv hquot hrem
  have hmod : b1.extractLsb' 6 2 = b1'.extractLsb' 6 2 := by
    apply BitVec.eq_of_toNat_eq
    rw [byte_field_toNat, byte_field_toNat]
    omega
  have hrm : b1.extractLsb' 0 3 = b1'.extractLsb' 0 3 := by
    apply BitVec.eq_of_toNat_eq
    rw [byte_field_toNat, byte_field_toNat]
    omega
  refine ⟨?_, ?_, ?_⟩
  · simp only [classify, hv, Option.map_some, extractFields, instrLen, hmod, hrm]
  · rw [decodeSpan_irm, decodeSpan_irm, hmod, hrm, extractDisp_cons_cons .irm _ _ b0 b1 b0 b1',
      extractData_cons_cons _ _ b0 b1 b0 b1']
    rfl
  · rw [decodeSpan_irm, decodeSpan_irm, hmod, hrm, extractDisp_cons_cons .irm _ _ b0 b1 b0 b1',
      extractData_cons_cons _ _ b0 b1 b0 b1']
    rfl

/-- Settles O3: the decoder run on each word. -/
theorem specWordsDecode : Obligations.SpecWordsDecode := by
  unfold Obligations.SpecWordsDecode
  decide

end Sys2Proof
end

section
/-! Proofs about the record of an accepted span: it is the arithmetic on the bytes, its fields are
those of its bytes, and its variant says which carry a value (10_state.md R32,
41_field_decoder.md R132, 43_mov_variants.md R160 to R166). -/

namespace Sys2Proof.Machine

/-! ### The parts of a span as numbers (R53, R120) -/

theorem word_eq_ofNat (lo hi : Byte) :
    word lo hi = BitVec.ofNat 16 (lo.toNat + 256 * hi.toNat) := by
  rw [← word_lo_hi (BitVec.ofNat 16 (lo.toNat + 256 * hi.toNat))]
  have hlo := byte_toNat_lt lo
  have hhi := byte_toNat_lt hi
  congr 1
  · apply BitVec.eq_of_toNat_eq
    rw [loByte, BitVec.extractLsb'_toNat, BitVec.toNat_ofNat, Nat.shiftRight_eq_div_pow]
    omega
  · apply BitVec.eq_of_toNat_eq
    rw [hiByte, BitVec.extractLsb'_toNat, BitVec.toNat_ofNat, Nat.shiftRight_eq_div_pow]
    omega

theorem ofNat_spanPair (s : List Byte) (k : Nat) :
    BitVec.ofNat 16 (spanPair s k) = word (spanByte s k) (spanByte s (k + 1)) :=
  (word_eq_ofNat _ _).symm

theorem ofNat_spanValue (s : List Byte) (w : Bit) (k : Nat) :
    BitVec.ofNat 16 (spanValue s w.toNat k) = extractData w k s := by
  obtain rfl | rfl := bit_cases w
  · exact BitVec.ofNat_toNat ..
  · exact ofNat_spanPair s k

theorem spanWidth_eq (w : Bit) : spanWidth w.toNat = immWidth w := by
  obtain rfl | rfl := bit_cases w <;> rfl

theorem ofNat_regId (w : Bit) (code : RegCode) :
    BitVec.ofNat 4 (8 * w.toNat + code.toNat) = regId w code := by
  rw [← regId_toNat, BitVec.ofNat_toNat, BitVec.setWidth_eq]

theorem ofNat_accumulator (w : Bit) :
    Operand.reg (BitVec.ofNat 4 (8 * w.toNat)) = accumulator w :=
  congrArg Operand.reg (ofNat_regId w 0)

/-- Where IRM's data begin (R129). -/
theorem dataOffset_eq (mod : ModField) (rm : RegCode) :
    (if mod.toNat = 1 then 3 else if mod.toNat = 2 then 4 else 2) = 2 + dispLen mod rm false := by
  obtain rfl | rfl | rfl | rfl := mod_cases mod <;> rfl

theorem spanDisp_eq (v : Variant) (mod : ModField) (rm : RegCode) (s : List Byte) :
    spanDisp s mod.toNat = (extractDisp v mod rm s).1 := by
  obtain rfl | rfl | rfl | rfl := mod_cases mod
  · rw [extractDisp_mod0]
    split <;> rfl
  · rfl
  · exact congrArg Disp.disp16 (ofNat_spanPair s 2)
  · rfl

theorem directForm_iff {mod : ModField} {rm : RegCode} :
    (mod.toNat = 0 ∧ rm.toNat = 6) ↔ (mod = 0 ∧ rm = 6) :=
  and_congr (BitVec.toNat_inj (y := 0)) (BitVec.toNat_inj (y := 6))

/-- The direct address is there for RMR's one form (R128). -/
theorem extractDisp_addr (v : Variant) (mod : ModField) (rm : RegCode) (s : List Byte) :
    (extractDisp v mod rm s).2 =
      if v = .rmr ∧ mod = 0 ∧ rm = 6 then some (BitVec.ofNat 16 (spanPair s 2)) else none := by
  obtain rfl | rfl | rfl | rfl := mod_cases mod
  · rw [extractDisp_mod0, ofNat_spanPair]
    simp only [Bool.and_eq_true, beq_iff_eq, true_and]
    split <;> rfl
  · exact (if_neg (by simp)).symm
  · exact (if_neg (by simp)).symm
  · exact (if_neg (by simp)).symm

theorem spanRm_eq (s : List Byte) (v : Variant) (w : Bit) (mod : ModField) (rm : RegCode) :
    spanRm s (v == .rmr) w.toNat mod.toNat rm.toNat =
      rmOperand w mod rm (extractDisp v mod rm s).1 (extractDisp v mod rm s).2 := by
  have hreg : mod.toNat = 3 ↔ mod = 3 := BitVec.toNat_inj (y := 3)
  simp only [spanRm, rmOperand, hreg, directForm_iff, ofNat_regId, spanDisp_eq v mod rm s,
    extractDisp_addr, BitVec.ofNat_toNat, BitVec.setWidth_eq]
  split
  · rfl
  · split
    · next hdirect =>
      by_cases hv : v = .rmr
      · simp [hv, hdirect]
      · simp [hv]
    · rfl

/-! ### The fields of byte 0 and byte 1 as numbers -/

theorem spanNat_w (s : List Byte) : spanNat s 0 % 2 = ((spanByte s 0).extractLsb' 0 1).toNat := by
  rw [byte_field_toNat]
  exact congrArg (· % 2) (Nat.div_one _).symm

theorem spanNat_mod (s : List Byte) :
    spanNat s 1 / 64 = ((spanByte s 1).extractLsb' 6 2).toNat := by
  have hb := byte_toNat_lt (spanByte s 1)
  rw [byte_field_toNat]
  exact (Nat.mod_eq_of_lt (show (spanByte s 1).toNat / 64 < 4 by omega)).symm

theorem spanNat_reg (s : List Byte) :
    spanNat s 1 / 8 % 8 = ((spanByte s 1).extractLsb' 3 3).toNat :=
  (byte_field_toNat _ 3 3).symm

theorem spanNat_low (s : List Byte) (k : Nat) :
    spanNat s k % 8 = ((spanByte s k).extractLsb' 0 3).toNat := by
  rw [byte_field_toNat]
  exact congrArg (· % 8) (Nat.div_one _).symm

/-! ### The decoding of a span is the arithmetic on its bytes, by variant -/

theorem spanDecoded_rmr {s : List Byte} (h : matchPrefix (spanByte s 0) = some .rmr) :
    spanDecoded s = some (.rmr, decodedOf (decodeSpan .rmr s)) := by
  have hop : spanNat s 0 / 4 = 0x22 := matchPrefix_eq_rmr_iff.1 h
  have hd : spanNat s 0 / 2 % 2 = ((spanByte s 0).extractLsb' 1 1).toNat :=
    (byte_field_toNat _ 1 1).symm
  have hd1 : ((spanByte s 0).extractLsb' 1 1).toNat = 1 ↔ (spanByte s 0).extractLsb' 1 1 = 1 :=
    BitVec.toNat_inj (y := 1)
  have hrm := spanRm_eq s .rmr ((spanByte s 0).extractLsb' 0 1)
    ((spanByte s 1).extractLsb' 6 2) ((spanByte s 1).extractLsb' 0 3)
  have hdisp := spanDisp_eq .rmr ((spanByte s 1).extractLsb' 6 2)
    ((spanByte s 1).extractLsb' 0 3) s
  have haddr := extractDisp_addr .rmr ((spanByte s 1).extractLsb' 6 2)
    ((spanByte s 1).extractLsb' 0 3) s
  simp only [true_and, ← directForm_iff] at haddr
  simp only [spanDecoded, hop, if_true, hd, hd1, spanNat_w, spanNat_mod, spanNat_reg, spanNat_low,
    ofNat_regId, BitVec.ofNat_toNat, BitVec.setWidth_eq, hdisp, ← haddr]
  rw [show spanRm s true _ _ _ = _ from hrm]
  rfl

theorem spanDecoded_mta {s : List Byte} (h : matchPrefix (spanByte s 0) = some .mta) :
    spanDecoded s = some (.mta, decodedOf (decodeSpan .mta s)) := by
  have hop : spanNat s 0 / 2 = 0x50 := matchPrefix_eq_mta_iff.1 h
  have hrmr : ¬ spanNat s 0 / 4 = 0x22 := by omega
  simp only [spanDecoded, hrmr, hop, if_true, if_false, true_or, spanNat_w, ofNat_spanValue,
    ofNat_accumulator, ← extractAddr_eq_extractData, BitVec.ofNat_toNat, BitVec.setWidth_eq]
  rfl

theorem spanDecoded_atm {s : List Byte} (h : matchPrefix (spanByte s 0) = some .atm) :
    spanDecoded s = some (.atm, decodedOf (decodeSpan .atm s)) := by
  have hop : spanNat s 0 / 2 = 0x51 := matchPrefix_eq_atm_iff.1 h
  have hrmr : ¬ spanNat s 0 / 4 = 0x22 := by omega
  simp only [spanDecoded, hrmr, hop, if_true, if_false, or_true, Nat.reduceEqDiff, spanNat_w,
    ofNat_spanValue, ofNat_accumulator, ← extractAddr_eq_extractData, BitVec.ofNat_toNat,
    BitVec.setWidth_eq]
  rfl

theorem spanDecoded_irm {s : List Byte} (h : matchPrefix (spanByte s 0) = some .irm) :
    spanDecoded s = some (.irm, decodedOf (decodeSpan .irm s)) := by
  have hop : spanNat s 0 / 2 = 0x63 := matchPrefix_eq_irm_iff.1 h
  have hrmr : ¬ spanNat s 0 / 4 = 0x22 := by omega
  have hrm := spanRm_eq s .irm ((spanByte s 0).extractLsb' 0 1)
    ((spanByte s 1).extractLsb' 6 2) ((spanByte s 1).extractLsb' 0 3)
  have hdisp := spanDisp_eq .irm ((spanByte s 1).extractLsb' 6 2)
    ((spanByte s 1).extractLsb' 0 3) s
  have hdata := dataOffset_eq ((spanByte s 1).extractLsb' 6 2) ((spanByte s 1).extractLsb' 0 3)
  rw [extractDisp_addr, if_neg (by simp)] at hrm
  simp only [spanDecoded, hrmr, hop, if_true, if_false, or_false, Nat.reduceEqDiff, spanNat_w,
    spanNat_mod, spanNat_reg, spanNat_low, hdata, spanWidth_eq, ofNat_spanValue,
    BitVec.ofNat_toNat, BitVec.setWidth_eq, hdisp]
  rw [show spanRm s false _ _ _ = _ from hrm]
  rfl

theorem spanDecoded_ir {s : List Byte} (h : matchPrefix (spanByte s 0) = some .ir) :
    spanDecoded s = some (.ir, decodedOf (decodeSpan .ir s)) := by
  have hop : spanNat s 0 / 16 = 0xB := matchPrefix_eq_ir_iff.1 h
  have hrmr : ¬ spanNat s 0 / 4 = 0x22 := by omega
  have hacc : ¬ (spanNat s 0 / 2 = 0x50 ∨ spanNat s 0 / 2 = 0x51) := by omega
  have hirm : ¬ spanNat s 0 / 2 = 0x63 := by omega
  have hw : spanNat s 0 / 8 % 2 = ((spanByte s 0).extractLsb' 3 1).toNat :=
    (byte_field_toNat _ 3 1).symm
  simp only [spanDecoded, hrmr, hacc, hirm, hop, if_true, if_false, hw, spanNat_low, ofNat_regId,
    spanWidth_eq, ofNat_spanValue, BitVec.ofNat_toNat, BitVec.setWidth_eq]
  rfl

theorem spanDecoded_eq {v : Variant} {s : List Byte} (h : matchPrefix (spanByte s 0) = some v) :
    spanDecoded s = some (v, decodedOf (decodeSpan v s)) := by
  cases v with
  | rmr => exact spanDecoded_rmr h
  | mta => exact spanDecoded_mta h
  | atm => exact spanDecoded_atm h
  | irm => exact spanDecoded_irm h
  | ir => exact spanDecoded_ir h

/-! ### The delivered record -/

/-- Settles O23: a `NEXT` that responds with a record has accepted a span, and the record is its
decoding. -/
theorem nextRecordIsTheByteArithmetic : Obligations.NextRecordIsTheByteArithmetic := by
  intro s t r rec hk h hresp
  obtain ⟨c, v, span, hc, -, ⟨hactive, hspan, hin, hheld⟩, rfl, hnamed⟩ :=
    State.request_record h hresp
  have hlen : (acceptedRecord v span c.pos).len = span.length := acceptedRecord_len hspan _
  have hbytes : (acceptedRecord v span c.pos).bytes = span := acceptedRecord_bytes hspan _
  refine ⟨c, hc, hactive, ?_, rfl, ?_, ?_, ?_, hnamed⟩
  · rwa [hlen]
  · rwa [hlen, hbytes]
  · rw [hlen, hbytes, acceptedRecord_variant]
    exact hspan
  · rw [hbytes, acceptedRecord_variant]
    exact spanDecoded_eq (isSpan_iff.1 hspan).1

/-- Every record a request responds with is that of a well-formed instruction. -/
theorem State.request_recordOf {s t : State} {r : Request} {code : RespCode} {rec : Record}
    (h : s.request r = .next t) (hresp : t.response = some ⟨code, .record rec⟩) :
    ∃ i : Instr, i.wellFormed = true ∧ rec = recordOf i rec.start (decodedOf i) := by
  obtain ⟨c, v, span, -, -, -, rfl, -⟩ := State.request_record h hresp
  exact acceptedRecord_decodesItsBytes v span c.pos

/-- Settles O24: the record is that of an instruction, whose fields are read back from its bytes. -/
theorem reparsedFieldsAgree : Obligations.ReparsedFieldsAgree := by
  intro s t r rec h hresp
  obtain ⟨i, -, hrec⟩ := State.request_recordOf h hresp
  rw [hrec, recordOf_variant, recordOf_bytes, extractFields_encode]
  cases i with
  | rmr | irm | ir | mta | atm => exact ⟨rfl, rfl, rfl, rfl, rfl⟩

/-! ### Which fields carry a value (R32) -/

/-- The fields that follow the variant alone. -/
theorem decodedOf_fields_by_variant (i : Instr) :
    ((decodedOf i).d ≠ none ↔ i.variant = .rmr) ∧
    ((decodedOf i).mod ≠ none ↔ i.variant = .rmr ∨ i.variant = .irm) ∧
    ((decodedOf i).rm ≠ none ↔ i.variant = .rmr ∨ i.variant = .irm) ∧
    ((decodedOf i).reg ≠ none ↔ i.variant = .rmr ∨ i.variant = .irm ∨ i.variant = .ir) ∧
    ((decodedOf i).data ≠ none ↔ i.variant = .irm ∨ i.variant = .ir) := by
  cases i with
  | rmr => simp [decodedOf, decodeRmr, Instr.variant]
  | mta => simp [decodedOf, decodeMta, Instr.variant]
  | atm => simp [decodedOf, decodeAtm, Instr.variant]
  | irm => simp [decodedOf, decodeIrm, Instr.variant]
  | ir => simp [decodedOf, decodeIr, Instr.variant]

/-- The address, which of RMR's forms only one has. -/
theorem decodedOf_addr_ne_none_iff {i : Instr} (h : i.wellFormed = true) :
    (decodedOf i).addr ≠ none ↔ i.variant = .mta ∨ i.variant = .atm ∨
      (i.variant = .rmr ∧ (decodedOf i).mod = some 0 ∧ (decodedOf i).rm = some 6) := by
  cases i with
  | rmr d w mod reg rm disp addr =>
    obtain ⟨-, haddr⟩ := Bool.and_eq_true_iff.1 h
    rw [directFits_iff] at haddr
    simpa [decodedOf, decodeRmr, Instr.variant, Option.isSome_iff_ne_none] using haddr
  | mta => simp [decodedOf, decodeMta, Instr.variant]
  | atm => simp [decodedOf, decodeAtm, Instr.variant]
  | irm => simp [decodedOf, decodeIrm, Instr.variant]
  | ir => simp [decodedOf, decodeIr, Instr.variant]

theorem Record.disp?_ne_none_iff (r : Record) :
    r.disp? ≠ none ↔ r.variant = .rmr ∨ r.variant = .irm := by
  cases h : r.variant <;> simp [Record.disp?, h, hasDisp]

/-- The displacement by the value of `mod` (R128). -/
theorem extractDisp_disp (v : Variant) (mod : ModField) (rm : RegCode) (s : List Byte) :
    (extractDisp v mod rm s).1 =
      if some mod = some 1 then .disp8 (spanByte s 2)
      else if some mod = some 2 then .disp16 (word (spanByte s 2) (spanByte s 3))
      else .noDisp := by
  obtain rfl | rfl | rfl | rfl := mod_cases mod
  · rw [extractDisp_mod0]
    split <;> rfl
  · rfl
  · rfl
  · rfl

/-- The displacement of a record is the one `mod` selects from its bytes. -/
theorem recordOf_disp? {i : Instr} {n : Nat} {d : Disp} (h : i.wellFormed = true)
    (hd : (recordOf i n (decodedOf i)).disp? = some d) :
    d = if (decodedOf i).mod = some 1 then .disp8 (spanByte (encode i) 2)
      else if (decodedOf i).mod = some 2 then
        .disp16 (word (spanByte (encode i) 2) (spanByte (encode i) 3))
      else .noDisp := by
  cases i with
  | rmr d w mod reg rm disp addr =>
    obtain ⟨hdisp, haddr⟩ := Bool.and_eq_true_iff.1 h
    obtain rfl := Option.some.inj hd
    exact (congrArg Prod.fst (extractDisp_rmr _ _ hdisp haddr)).symm.trans
      (extractDisp_disp .rmr mod rm _)
  | irm w mod reg rm disp data =>
    obtain ⟨hdisp, -⟩ := Bool.and_eq_true_iff.1 h
    obtain rfl := Option.some.inj hd
    exact (congrArg Prod.fst (extractDisp_irm rm _ _ _ hdisp)).symm.trans
      (extractDisp_disp .irm mod rm _)
  | ir | mta | atm => cases hd

/-- Settles O54: the record is that of a well-formed instruction, whose variant says which of its
fields there are. -/
theorem recordFieldsByVariant : Obligations.RecordFieldsByVariant := by
  intro s t r rec h hresp
  obtain ⟨i, hwf, hrec⟩ := State.request_recordOf h hresp
  generalize rec.start = n at hrec
  subst hrec
  obtain ⟨hd, hmod, hrm, hreg, hdata⟩ := decodedOf_fields_by_variant i
  obtain ⟨htwo, hsix⟩ := instrLen_bounds i.fields
  rw [← encode_length hwf] at htwo hsix
  exact ⟨hd, hmod, hrm, hreg, Record.disp?_ne_none_iff _, fun _ => recordOf_disp? hwf,
    decodedOf_addr_ne_none_iff hwf, hdata, htwo, hsix, rfl⟩

end Sys2Proof.Machine
end

section
/-! Proofs about the registers of the map as numbers and bit fields (10_state.md R33). -/

namespace Sys2Proof.Machine

/-! ### `STATUS` and the positions -/

theorem append_toNat {m n : Nat} (x : BitVec m) (y : BitVec n) :
    (x ++ y).toNat = x.toNat * 2 ^ n + y.toNat := by
  rw [BitVec.toNat_append, ← Nat.shiftLeft_add_eq_or_of_lt y.isLt, Nat.shiftLeft_eq]

theorem Cursor.resValid_toNat (c : Cursor) :
    (BitVec.ofBool c.resValid).toNat = if c.res = none then 0 else 1 := by
  rw [Cursor.resValid]
  cases c.res <;> rfl

theorem Cursor.hasNext_toNat (c : Cursor) :
    (BitVec.ofBool c.hasNext).toNat =
      if c.phase = .active ∧ c.pos + 1 < c.endOff then 1 else 0 := by
  rw [Cursor.hasNext_eq_decide]
  split <;> simp [*]

/-- Settles O31: `STATUS` is its fields side by side, and each other register is one field. -/
theorem statusRegistersOfTheMap : Obligations.StatusRegistersOfTheMap := by
  intro c
  refine ⟨⟨c.statusWord, rfl, ?status⟩, ⟨_, rfl, BitVec.toNat_ofNat ..⟩,
    ⟨_, rfl, BitVec.toNat_ofNat ..⟩, ⟨_, rfl, BitVec.toNat_ofNat ..⟩, ⟨_, rfl, ?errByte⟩,
    ⟨_, rfl, BitVec.toNat_ofNat ..⟩, rfl, rfl⟩
  case status =>
    simp only [Cursor.statusWord, append_toNat, Cursor.resValid_toNat, Cursor.hasNext_toNat,
      BitVec.toNat_zero]
    omega
  case errByte => exact BitVec.toNat_setWidth_of_le (by decide)

/-! ### `RES` -/

/-- While `RES` is valid, indices 5 to 13 are its views. -/
theorem Cursor.readReg_of_res {c : Cursor} {r : Record} {index : Nat} (hres : c.res = some r)
    (h : 5 ≤ index ∧ index ≤ 13) : c.readReg index = some (r.readReg index) := by
  unfold Cursor.readReg
  rw [if_pos h, hres]
  rfl

theorem Record.infoWord_fields (r : Record) :
    r.infoWord.extractLsb' 0 3 = variantCode r.variant ∧ r.infoWord.extractLsb' 3 1 = 0 ∧
    r.infoWord.extractLsb' 4 3 = BitVec.ofNat 3 r.len ∧ r.infoWord.extractLsb' 7 1 = 0 ∧
    r.infoWord.extractLsb' 8 1 = r.w ∧
    r.infoWord.extractLsb' 9 1 = r.d.getD 0 ∧
    r.infoWord.extractLsb' 10 1 = BitVec.ofBool r.d.isSome ∧
    r.infoWord.extractLsb' 11 1 = BitVec.ofBool r.mod.isSome ∧
    r.infoWord.extractLsb' 12 2 = r.mod.getD 0 ∧ r.infoWord.extractLsb' 14 3 = r.reg.getD 0 ∧
    r.infoWord.extractLsb' 17 1 = BitVec.ofBool r.reg.isSome ∧
    r.infoWord.extractLsb' 18 3 = r.rm.getD 0 ∧ r.infoWord.extractLsb' 21 11 = 0 := by
  simp (disch := decide) only [Record.infoWord, validBit, BitVec.extractLsb'_append_eq_of_le,
    BitVec.extractLsb'_append_eq_of_add_le, Nat.reduceSub, BitVec.extractLsb'_eq_self, and_self,
    BitVec.ofNat_eq_ofNat]

theorem Record.bytesLo_byte (r : Record) {k : Nat} (h : k < 4) :
    r.bytesLo.extractLsb' (8 * k) 8 = r.bytes.getD k 0 := by
  interval_cases k <;>
    simp (disch := decide) only [Record.bytesLo, BitVec.extractLsb'_append_eq_of_le,
      BitVec.extractLsb'_append_eq_of_add_le, Nat.reduceMul, Nat.reduceSub,
      BitVec.extractLsb'_eq_self]

theorem Record.bytesHi_fields (r : Record) :
    r.bytesHi.extractLsb' 16 16 = 0 ∧ r.bytesHi.extractLsb' 0 8 = r.bytes.getD 4 0 ∧
    r.bytesHi.extractLsb' 8 8 = r.bytes.getD 5 0 := by
  simp (disch := decide) only [Record.bytesHi, BitVec.extractLsb'_append_eq_of_le,
    BitVec.extractLsb'_append_eq_of_add_le, Nat.reduceSub, BitVec.extractLsb'_eq_self, and_self,
    BitVec.ofNat_eq_ofNat]

/-- The displacement register is that of the record's field, and 0 where there is none. -/
theorem Record.dispRegister_fields (r : Record) :
    r.dispRegister.extractLsb' 2 14 = 0 ∧
    r.dispRegister.extractLsb' 16 16 = r.disp?.elim 0 dispWord ∧
    r.dispRegister.extractLsb' 0 2 = r.disp?.elim 0 dispKind := by
  rw [Record.dispRegister]
  cases r.disp? with
  | none => decide
  | some d =>
    simp (disch := decide) only [BitVec.extractLsb'_append_eq_of_le,
      BitVec.extractLsb'_append_eq_of_add_le, Nat.reduceSub, BitVec.extractLsb'_eq_self,
      Option.elim_some, and_self, BitVec.ofNat_eq_ofNat]

theorem Record.addrRegister_fields (r : Record) :
    r.addrRegister.extractLsb' 0 16 = r.addr.getD 0 ∧
    r.addrRegister.extractLsb' 16 1 = BitVec.ofBool r.addr.isSome ∧
    r.addrRegister.extractLsb' 17 15 = 0 := by
  simp (disch := decide) only [Record.addrRegister, validBit, BitVec.extractLsb'_append_eq_of_le,
    BitVec.extractLsb'_append_eq_of_add_le, Nat.reduceSub, BitVec.extractLsb'_eq_self, and_self,
    BitVec.ofNat_eq_ofNat]

theorem Record.dataRegister_of_none {r : Record} (h : r.data = none) : r.dataRegister = 0 := by
  simp only [Record.dataRegister, h]

theorem Record.dataRegister_fields {r : Record} {x : Word16} {width : ImmWidth}
    (h : r.data = some (x, width)) :
    r.dataRegister.extractLsb' 18 14 = 0 ∧ r.dataRegister.extractLsb' 17 1 = 1 ∧
    r.dataRegister.extractLsb' 16 1 = widthBit width ∧ r.dataRegister.extractLsb' 0 16 = x := by
  simp (disch := decide) only [Record.dataRegister, h, BitVec.extractLsb'_append_eq_of_le,
    BitVec.extractLsb'_append_eq_of_add_le, Nat.reduceSub, BitVec.extractLsb'_eq_self, and_self,
    BitVec.ofNat_eq_ofNat]

/-- Settles O32: each register is its fields side by side, and every field is read where it
stands. -/
theorem resultRegistersOfTheMap : Obligations.ResultRegistersOfTheMap := by
  intro c r hres
  refine ⟨⟨r.infoWord, Cursor.readReg_of_res hres (by decide), r.infoWord_fields⟩,
    Cursor.readReg_of_res hres (by decide),
    ⟨r.bytesLo, Cursor.readReg_of_res hres (by decide), fun k => r.bytesLo_byte⟩,
    ⟨r.bytesHi, Cursor.readReg_of_res hres (by decide), r.bytesHi_fields⟩,
    ⟨r.dispRegister, Cursor.readReg_of_res hres (by decide), ?disp⟩,
    ⟨r.addrRegister, Cursor.readReg_of_res hres (by decide), r.addrRegister_fields⟩,
    ⟨r.dataRegister, Cursor.readReg_of_res hres (by decide), ?data⟩,
    Cursor.readReg_of_res hres (by decide), Cursor.readReg_of_res hres (by decide), rfl⟩
  case disp =>
    obtain ⟨hunused, hvalue, hkind⟩ := r.dispRegister_fields
    rw [hvalue, hkind]
    refine ⟨hunused, ?_⟩
    cases r.disp? with
    | none => exact ⟨rfl, rfl⟩
    | some d => exact ⟨dispWord_toInt d, by cases d <;> rfl⟩
  case data =>
    cases hdata : r.data with
    | none =>
      rw [Record.dataRegister_of_none hdata]
      exact ⟨rfl, rfl, fun _ => rfl, nofun⟩
    | some xw =>
      obtain ⟨hunused, hvalid, hwidth, hvalue⟩ := Record.dataRegister_fields hdata
      refine ⟨hunused, hvalid, nofun, fun x width h => ?_⟩
      obtain ⟨rfl, rfl⟩ := Prod.mk.inj (Option.some.inj h)
      exact ⟨hvalue, hwidth.trans (by cases xw.2 <;> rfl)⟩

end Sys2Proof.Machine
end

section
/-! Proofs about the frame of an instruction and about the text of a register move
(43_mov_variants.md R167, R168, 40_lookup_tables.md R103). -/

namespace Sys2Proof.Machine

/-! ### The frame of an instruction -/

/-- Settles O18: an instruction is refused, or writes of its cursor instance what `Cursor.accept`
writes. -/
theorem instructionFrame : Obligations.InstructionFrame := by
  intro i s t h
  rw [exec_eq_deliver] at h
  obtain rfl := Host.Outcome.next.inj h
  obtain ⟨-, heq⟩ | ⟨c, hc, heq⟩ := State.deliver_cases s i (decodedOf i)
  · rw [heq]
    exact ⟨rfl, rfl, rfl, rfl, fun _ => rfl, rfl, fun _ _ => rfl,
      fun c hc => ⟨c, hc, rfl, rfl, rfl, rfl, rfl, rfl⟩⟩
  · rw [heq]
    refine ⟨rfl, rfl, rfl, rfl, fun _ => rfl, by simp, fun j hj => State.setCursor_other hj,
      fun d hd => ?_⟩
    obtain rfl := Option.some.inj (hd.symm.trans hc)
    exact ⟨_, State.setCursor_named hc, rfl, rfl, rfl, rfl, rfl, rfl⟩

/-! ### Register moves (R168) -/

/-- The name of a register has no bracket. -/
theorem RegName.spelling_no_bracket (n : RegName) :
    '[' ∉ n.spelling.toList ∧ ']' ∉ n.spelling.toList := by
  cases n <;> decide

/-- The line of a record whose operands are registers. -/
theorem Record.render_registers {signed : Bool} {r : Record} {a b : RegId} (hdst : r.dst = .reg a)
    (hsrc : r.src = .reg b) :
    r.render signed =
      .ok ("mov " ++ (regIdName a).spelling ++ ", " ++ (regIdName b).spelling) := by
  simp only [Record.render, hdst, hsrc, Operand.text]

/-- With `mod = 11` the r/m operand is a register too, whichever way `d` turns the operands. -/
theorem decodeRmr_registers (d w : Bit) (reg rm : RegCode) (disp : Disp) (addr : Option Word16) :
    ∃ a b : RegId, (decodeRmr d w 3 reg rm disp addr).dst = .reg a ∧
      (decodeRmr d w 3 reg rm disp addr).src = .reg b := by
  obtain rfl | rfl := bit_cases d
  · exact ⟨regId w rm, regId w reg, rfl, rfl⟩
  · exact ⟨regId w reg, regId w rm, rfl, rfl⟩

/-- Settles O19: both operands are registers, and neither their names nor the words around them have
a bracket. -/
theorem registerDirectNamesOnlyRegisters : Obligations.RegisterDirectNamesOnlyRegisters := by
  intro d w reg rm disp addr n signed
  obtain ⟨a, b, hdst, hsrc⟩ := decodeRmr_registers d w reg rm disp addr
  refine ⟨⟨a, b, hdst, hsrc⟩, _, Record.render_registers hdst hsrc, ?_⟩
  obtain ⟨haopen, haclose⟩ := (regIdName a).spelling_no_bracket
  obtain ⟨hbopen, hbclose⟩ := (regIdName b).spelling_no_bracket
  simp [haopen, haclose, hbopen, hbclose]

/-! ### The effective-address table (R103) -/

/-- Settles O10: the table read off row by row. -/
theorem effectiveAddressTable : Obligations.EffectiveAddressTable := by
  unfold Obligations.EffectiveAddressTable
  decide

end Sys2Proof.Machine
end

section
/-! Proofs about a step and the moves of the host (44_cursor.md R180 to R185, 20_memory.md R62,
70_reset_and_hazards.md R250 to R253). -/

namespace Sys2Proof.Machine

/-! ### One move of the host -/

theorem step_of_pending {s : State} {e : HostEvent} {later : List HostEvent}
    (h : s.pending = e :: later) : step s = runEvent e { s with pending := later } := by
  simp only [step, h]

theorem State.issue_eq (s : State) (e : HostEvent) : s.issue e = runEvent e s := rfl

/-- A request leaves its own cursor id selected, and the later moves pending. -/
theorem runRequest_sel_pending {s t : State} {r : Request} (h : runRequest r s = .next t) :
    t.pending = s.pending ∧ t.sel = r.cursor := by
  obtain ⟨-, rfl⟩ | ⟨c, k, c', code, p, -, -, -, rfl⟩ := runRequest_cases h
  · exact ⟨rfl, rfl⟩
  · exact ⟨rfl, rfl⟩

/-- Settles O22: the step runs the first pending move, whose frame says the rest. -/
theorem stepTakesOneHostMove : Obligations.StepTakesOneHostMove := by
  refine ⟨fun s h => ?idle, fun s e later => step_of_pending, fun s t r later h hstep => ?command,
    fun s t a bytes later h hstep => ?load, fun s later h => ?powerOn,
    fun s id index v later => step_of_pending⟩
  case idle => simp only [step, h]
  case command =>
    rw [step_of_pending h] at hstep
    exact runRequest_sel_pending hstep
  case load =>
    rw [step_of_pending h] at hstep
    obtain ⟨-, -, rfl⟩ := hostLoad_cases hstep
    exact ⟨rfl, rfl, rfl⟩
  case powerOn => exact ⟨_, step_of_pending h, rfl, List.length_map _⟩

/-- Settles O51: the move of a write to the map is to do nothing. -/
theorem mapWritesAreIgnored : Obligations.MapWritesAreIgnored := fun _ _ _ _ => rfl

/-- Settles O53: a power-on reset maps every cursor instance to `Cursor.reset`. -/
theorem powerOnLeavesTheHostInterface : Obligations.PowerOnLeavesTheHostInterface := by
  intro s
  rw [State.issue_eq, ← List.map_const']
  rfl

/-- Settles O25: the codes read off one by one. -/
theorem commandCodes : Obligations.CommandCodes :=
  ⟨fun _ _ _ => ⟨rfl, rfl, rfl, rfl, rfl, rfl, rfl, rfl⟩, rfl⟩

/-- Settles O26: every cursor instance of State.reset is `Cursor.reset`. -/
theorem resetState : Obligations.ResetState := by
  refine ⟨fun c hc => ?_, by decide⟩
  obtain rfl := List.eq_of_mem_replicate hc
  exact ⟨rfl, rfl, rfl, rfl, rfl, rfl, rfl, rfl, rfl, rfl,
    fun index hlo hhi => Cursor.readReg_eq_none_iff.2 ⟨hlo, hhi, rfl⟩⟩

/-- Settles O33: the move of `NEXT` in each phase but `ACTIVE`. -/
theorem nextOutsideActive : Obligations.NextOutsideActive := by
  intro s r c hk hc
  exact ⟨fun hphase => State.request_of_quiet_move hc hk (.idle hphase),
    fun hphase => State.request_of_move hc hk (.ended hphase),
    fun hphase => ⟨errResponse c.err, respCode_errResponse c.err,
      State.request_of_move hc hk (.faulted _ hphase rfl)⟩⟩

/-! ### A host load (R62) -/

theorem hostLoad_of_out_of_range {s : State} {a : Nat} {bytes : List Byte}
    (h : s.bufCap < a + bytes.length) : hostLoad a bytes s = .fault .bufOutOfRange := if_pos h

/-- In range, a load is refused where an active pass may read one of its bytes, and writes them
elsewhere. -/
theorem hostLoad_of_in_range {s : State} {a : Nat} {bytes : List Byte}
    (h : a + bytes.length ≤ s.bufCap) :
    hostLoad a bytes s =
      if ∃ c ∈ s.cursors, c.mayRead a bytes.length = true then .refused .hostWroteActivePass
      else .next { s with buf := s.buf.insertAll a bytes } := by
  simp only [hostLoad, if_neg (Nat.not_lt.2 h), List.any_eq_true]

/-- Settles O50: `Cursor.mayRead` says whether an active pass holds one of the bytes, and a read
after a load gives what it wrote. -/
theorem hostLoadWritesBetweenPasses : Obligations.HostLoadWritesBetweenPasses := by
  intro s a bytes
  refine ⟨fun hout => hostLoad_of_out_of_range hout, fun hin hpass => ?refused,
    fun hin hclear => ?loaded⟩
  case refused =>
    obtain ⟨c, hc, hactive, hx⟩ := hpass
    exact (hostLoad_of_in_range hin).trans
      (if_pos ⟨c, hc, Cursor.mayRead_iff.2 ⟨hactive, hx⟩⟩)
  case loaded =>
    refine ⟨{ s with buf := s.buf.insertAll a bytes },
      (hostLoad_of_in_range hin).trans (if_neg ?_), rfl, rfl, rfl, rfl,
      fun k hk => State.memRead_insertAll_inside hk hin,
      fun x => State.memRead_insertAll_outside s bytes⟩
    rintro ⟨c, hc, hmay⟩
    obtain ⟨hactive, x, hlo, hhi, hx⟩ := Cursor.mayRead_iff.1 hmay
    exact hclear c hc hactive x hlo hhi hx

/-! ### The step that runs an instruction (R185) -/

/-- The step of a `NEXT` that accepts a span is exec of the instruction in it. -/
theorem step_of_acceptsSpan {s : State} {r : Request} {c : Cursor} {later : List HostEvent}
    {v : Variant} {span : List Byte} (hpending : s.pending = .command r :: later)
    (hk : r.command = some .next) (hc : s.cursors[r.cursor]? = some c)
    (hacc : s.AcceptsSpan c v span) :
    step s = exec (decodeSpan v span) { s with pending := later, sel := r.cursor } := by
  have hsel : { s with pending := later, sel := r.cursor }.cursor? = some c := hc
  have hm : CursorMove { s with pending := later } c .next
      (c.accept (acceptedRecord v span c.pos)) .ok (.record (acceptedRecord v span c.pos)) :=
    hacc.move.congr (s := s) rfl fun _ _ _ => rfl
  rw [step_of_pending hpending, exec_eq_deliver, State.deliver_eq hsel]
  exact runRequest_of_move hc hk hm

/-- The bytes at the front of a slice are a slice. -/
theorem State.slice_of_append {s : State} {a n : Nat} {xs ys : List Byte}
    (h : s.slice a n = some (xs ++ ys)) : s.slice a xs.length = some xs := by
  induction xs generalizing a n with
  | nil => rfl
  | cons x xs ih =>
    obtain rfl := State.slice_length h
    obtain ⟨b, rest, heq, hb, hrest⟩ := State.slice_succ h
    obtain ⟨rfl, rfl⟩ := List.cons.inj heq
    rw [List.length_cons, State.slice, hb, ih hrest]

/-- Settles O21: what the bytes of the pass decode to is a span at `POS`, which the `NEXT`
accepts. -/
theorem stepRunsTheDecodedInstruction : Obligations.StepRunsTheDecodedInstruction := by
  intro s r c later bytes rest i hpending hk hc hactive hheld hdecode
  obtain ⟨v, span, hspan, rfl, rfl⟩ := decode_eq_ok_iff.1 hdecode
  have hlen := State.slice_length hheld
  have htwo := hspan.two_le
  rw [List.length_append] at hlen
  exact step_of_acceptsSpan hpending hk hc
    { active := hactive, is_span := hspan, in_pass := by omega,
      held := State.slice_of_append hheld }

/-! ### Placing an instruction (log 13) -/

/-- Bytes that are read one by one are read as a slice. -/
theorem State.slice_of_memRead {s : State} {a : Nat} {bytes : List Byte}
    (h : ∀ k < bytes.length, s.memRead (a + k) = bytes[k]?) :
    s.slice a bytes.length = some bytes := by
  induction bytes generalizing a with
  | nil => rfl
  | cons b bytes ih =>
    have hb : s.memRead a = some b := h 0 (Nat.zero_lt_succ _)
    have hrest : s.slice (a + 1) bytes.length = some bytes := ih fun k hk => by
      rw [Nat.add_assoc, Nat.add_comm 1]
      exact h (k + 1) (Nat.succ_lt_succ hk)
    rw [List.length_cons, State.slice, hb, hrest]

theorem State.placeInstr_eq {s : State} {c : Cursor} {others : List Cursor}
    (h : s.cursors = c :: others) (bytes : List Byte) :
    s.placeInstr bytes =
      { s with
        bufCap := max s.bufCap (max c.endOff (c.pos + bytes.length))
        buf := s.buf.insertAll c.pos bytes
        cursors := c.readyFor bytes.length :: others
        pending := .command (nextRequest 0) :: s.pending } := by
  simp only [State.placeInstr, h]
  rfl

/-- A placed span is one that a `NEXT` of the first cursor instance accepts. -/
theorem State.placeInstr_acceptsSpan {s : State} {c : Cursor} {others : List Cursor} {v : Variant}
    {span more : List Byte} (hcursors : s.cursors = c :: others) (hspan : IsSpan v span) :
    (s.placeInstr (span ++ more)).AcceptsSpan (c.readyFor (span ++ more).length) v span where
  active := rfl
  is_span := hspan
  in_pass := by
    show c.pos + _ ≤ max c.endOff _
    rw [List.length_append]
    omega
  held := by
    rw [State.placeInstr_eq hcursors]
    refine State.slice_of_append (ys := more) (State.slice_of_memRead fun k hk => ?_)
    exact State.memRead_insertAll_inside
      (s := { s with bufCap := max s.bufCap (max c.endOff (c.pos + (span ++ more).length)) })
      hk ((le_max_right _ _).trans (le_max_right _ _))

theorem decodeTableWord_eq_some_iff {nbits w : Nat} {i : Instr} :
    decodeTableWord nbits w = some i ↔ ∃ rest, decode (tableBytes nbits w) = .ok (i, rest) := by
  unfold decodeTableWord
  split
  · next j rest h => simp [h]
  · next e h => simp [h]

/-- Settles O52: the placed bytes begin with a span, which the placed `NEXT` accepts. -/
theorem placedInstructionRuns : Obligations.PlacedInstructionRuns := by
  intro s nbits w i hne hword
  obtain ⟨c, others, hcursors⟩ := List.exists_cons_of_ne_nil hne
  obtain ⟨more, hdecode⟩ := decodeTableWord_eq_some_iff.1 hword
  obtain ⟨v, span, hspan, hbytes, rfl⟩ := decode_eq_ok_iff.1 hdecode
  have hacc := State.placeInstr_acceptsSpan (more := more) hcursors hspan
  have hplaced := State.placeInstr_eq hcursors (span ++ more)
  have hcur : (s.placeInstr (span ++ more)).cursors[0]? =
      some (c.readyFor (span ++ more).length) := by
    rw [hplaced]
    rfl
  have hstep := step_of_acceptsSpan (r := nextRequest 0) (congrArg State.pending hplaced) rfl hcur
    hacc
  rw [State.withFetchWord, hbytes, hspan.encode_decodeSpan]
  refine ⟨_, hstep, rfl, rfl, _, hcur, rfl, hacc.in_pass, ?_⟩
  rw [← hacc.held]
  exact State.slice_congr fun _ _ _ => rfl

end Sys2Proof.Machine
end
